-- ==== Sys2Proof/Word.lean ====
section
/-! DEFINITION. The data types of the datapath: bytes, 4-byte words, 16-byte blocks (00_scope.md R11 to R13). -/

namespace Sys2Proof

/-- R11: an 8-bit unsigned value, bit 7 the most significant. -/
abbrev Byte := BitVec 8

/-- R12: a word is a sequence of 4 bytes `(a0, a1, a2, a3)`. -/
structure Word where
  a0 : Byte
  a1 : Byte
  a2 : Byte
  a3 : Byte
deriving DecidableEq, Repr, Inhabited

/-- A 16-byte block, held as the four columns of the 4 by 4 state array (R13). R43: byte `r + 4*c` of the flat
block is row `r` of column `c`, so the 16 bytes in order are the bytes of `c0`, then of `c1`, `c2` and `c3`. -/
structure Block where
  c0 : Word
  c1 : Word
  c2 : Word
  c3 : Word
deriving DecidableEq, Repr, Inhabited

/-- The word `00000000`. -/
def Word.zero : Word := ⟨0x00, 0x00, 0x00, 0x00⟩

/-- R11: `0^16`, sixteen zero bytes. -/
def Block.zero : Block := ⟨Word.zero, Word.zero, Word.zero, Word.zero⟩

end Sys2Proof
end

