-- ==== Sys2Proof/Config.lean ====
section
/-! DEFINITION. The model's free values. The parameters of 00_scope.md R10 are all fixed numbers and stand
as such in the types: 60 round-key words, 6-bit `KLEN` and `IVLEN`, 24-bit `LEN`; `NUM_INSTANCES` is an argument of
`Platform`. -/

namespace Sys2Proof

/-- Free value, log entry 7 (safe): what a read of a round-key word that does not exist would give. R25 and R93 keep
every index a legal session reads below the words of its schedule, so no run reads it; nothing constrains it. -/
opaque Config.noSuchWord : Nat → Word

/-- Free value, log entry 7 (safe): what a read of `Rcon` outside 1..10 would give. R83: no such index is ever read. -/
opaque Config.noSuchRcon : Nat → Byte

end Sys2Proof
end

