-- ==== Sys2Proof/Syntax.lean ====
section
/-! DEFINITION. The command set: one constructor per row of spec/opcode_table.json (30_encoding.md R70). -/

namespace Sys2Proof

/-- The commands of the opcode map (R70), each with its operands as R67 reads them from the word and the payload.
The length fields are the lengths of the byte sequences they count (log entry 6): `KLEN` is the key's, `IVLEN` the
IV's, `LEN` the data's; `IVP` says whether there is an IV at all. -/
inductive Instr where
  /-- R160: construct a session; `mode` is the 3-bit `MODE` field, `iv = none` is `IVP = 0`. -/
  | init (mode : BitVec 3) (key : List Byte) (iv : Option (List Byte))
  /-- R166: encrypt the payload. -/
  | encrypt (data : List Byte)
  /-- R167: decrypt the payload. -/
  | decrypt (data : List Byte)
  /-- R168: read the chain register. -/
  | getIv
  /-- R169: read the block size. -/
  | getBlockSize
  /-- R170: read the key length. -/
  | getKeySize
  /-- R171: read the mode code. -/
  | getMode
  /-- R172: destroy the session. -/
  | release
deriving DecidableEq, Repr

/-- R60: a command as the host delivers it, one 32-bit word (delivered whole, R46) and an input payload. -/
structure Command where
  word : BitVec 32
  payload : List Byte
deriving DecidableEq, Repr

/-- Why a command is illegal, in the order the decoder finds it (R71, R73, R195 item 1). The host sees one status,
`IllegalCommand`, for all four. -/
inductive IllegalCause where
  /-- `OP` is `0000` or `1001` to `1111`. -/
  | reservedOpcode
  /-- A `RSV` field of the format is not all zeros. -/
  | reservedField
  /-- `INIT` with `IVP = 0` and `IVLEN != 0`. -/
  | ivLengthWithoutIv
  /-- The payload does not have the length the word requires. -/
  | payloadLength
deriving DecidableEq, Repr

end Sys2Proof
end

