-- ==== Sys2Proof/WellFormed.lean ====
section
/-! DEFINITION. Which instruction terms the encoding can write down: every count fits its field (R62, R64, R66). -/

namespace Sys2Proof

/-- R62: the IV's length, when there is one, fits the 6-bit `IVLEN` field. -/
def ivFits : Option (List Byte) → Bool
  | none => true
  | some iv => iv.length < 64

/-- An instruction is well formed when its key and IV lengths fit `KLEN` and `IVLEN` (R62) and its data length fits
`LEN` (R64). Lengths that fit but that the source rejects are well formed (R72). -/
def Instr.wf : Instr → Bool
  | .init _ key iv => key.length < 64 && ivFits iv
  | .encrypt data => data.length < 2 ^ 24
  | .decrypt data => data.length < 2 ^ 24
  | .getIv => true
  | .getBlockSize => true
  | .getKeySize => true
  | .getMode => true
  | .release => true

end Sys2Proof
end

