-- ==== Sys2Proof/Decode.lean ====
section
/-! DEFINITION. The decoder (30_encoding.md R61 to R75), total on every word and payload, and the encoder. -/

namespace Sys2Proof

/-! ## Fields of the command word (R61, R62, R64, R65, R66) -/

/-- R61: `OP`, bits 3:0. -/
def opField (w : BitVec 32) : BitVec 4 := w.extractLsb' 0 4

/-- R62: `MODE`, bits 6:4 of format I. -/
def modeField (w : BitVec 32) : BitVec 3 := w.extractLsb' 4 3

/-- R62: `IVP`, bit 7 of format I. -/
def ivpField (w : BitVec 32) : Bool := w.getLsbD 7

/-- R62: `KLEN`, bits 13:8 of format I. -/
def klenField (w : BitVec 32) : BitVec 6 := w.extractLsb' 8 6

/-- R62: `IVLEN`, bits 19:14 of format I. -/
def ivlenField (w : BitVec 32) : BitVec 6 := w.extractLsb' 14 6

/-- R62: `RSV`, bits 31:20 of format I. -/
def rsvFieldI (w : BitVec 32) : BitVec 12 := w.extractLsb' 20 12

/-- R64: `LEN`, bits 31:8 of format D. -/
def lenField (w : BitVec 32) : BitVec 24 := w.extractLsb' 8 24

/-- R64: `RSV`, bits 7:4 of format D. -/
def rsvFieldD (w : BitVec 32) : BitVec 4 := w.extractLsb' 4 4

/-- R65: `RSV`, bits 31:4 of format Z. -/
def rsvFieldZ (w : BitVec 32) : BitVec 28 := w.extractLsb' 4 28

/-- R73, `INIT`: `KLEN + (IVLEN if IVP = 1 else 0)`. -/
def initPayloadLength (w : BitVec 32) : Nat :=
  (klenField w).toNat + (if ivpField w then (ivlenField w).toNat else 0)

/-! ## The decoder -/

/-- R74, arm `0001`; R67 splits the payload into key and IV. -/
def decodeInit (c : Command) : Except IllegalCause Instr :=
  if rsvFieldI c.word ≠ 0 then .error .reservedField
  else if ivpField c.word = false ∧ ivlenField c.word ≠ 0 then .error .ivLengthWithoutIv
  else if c.payload.length ≠ initPayloadLength c.word then .error .payloadLength
  else
    let klen := (klenField c.word).toNat
    let ivlen := (ivlenField c.word).toNat
    .ok (.init (modeField c.word) (c.payload.take klen)
      (if ivpField c.word then some ((c.payload.drop klen).take ivlen) else none))

/-- R74, arms `0010` and `0011`: format D with the operation `mk`. -/
def decodeData (mk : List Byte → Instr) (c : Command) : Except IllegalCause Instr :=
  if rsvFieldD c.word ≠ 0 then .error .reservedField
  else if c.payload.length ≠ (lenField c.word).toNat then .error .payloadLength
  else .ok (mk c.payload)

/-- R74, arms `0100` to `1000`: format Z with the operation `i`. -/
def decodeBare (i : Instr) (c : Command) : Except IllegalCause Instr :=
  if rsvFieldZ c.word ≠ 0 then .error .reservedField
  else if c.payload.length ≠ 0 then .error .payloadLength
  else .ok i

/-- R74: the decoder. Every word and payload gives exactly one command or one cause of `IllegalCommand`. -/
def decode (c : Command) : Except IllegalCause Instr :=
  match (opField c.word).toNat with
  | 1 => decodeInit c
  | 2 => decodeData .encrypt c
  | 3 => decodeData .decrypt c
  | 4 => decodeBare .getIv c
  | 5 => decodeBare .getBlockSize c
  | 6 => decodeBare .getKeySize c
  | 7 => decodeBare .getMode c
  | 8 => decodeBare .release c
  | _ => .error .reservedOpcode

/-! ## The encoder -/

/-- R62: a word of format I, each field at the weight of its lowest bit, `OP = 0001` and `RSV` 0. -/
def encodeWordI (ivlen klen : BitVec 6) (ivp : Bool) (mode : BitVec 3) : BitVec 32 :=
  BitVec.ofNat 32 (ivlen.toNat * 2 ^ 14 + klen.toNat * 2 ^ 8 + ivp.toNat * 2 ^ 7 + mode.toNat * 2 ^ 4 + 0x1)

/-- R64: a word of format D, `RSV` 0. -/
def encodeWordD (len : BitVec 24) (op : BitVec 4) : BitVec 32 := BitVec.ofNat 32 (len.toNat * 2 ^ 8 + op.toNat)

/-- R65: a word of format Z, `RSV` 0. -/
def encodeWordZ (op : BitVec 4) : BitVec 32 := BitVec.ofNat 32 op.toNat

/-- R76: the command the assembler writes for an instruction, its word from the formats and its payload the key then
the IV, or the data. -/
def encode : Instr → Command
  | .init mode key none => ⟨encodeWordI 0 (BitVec.ofNat 6 key.length) false mode, key⟩
  | .init mode key (some iv) =>
    ⟨encodeWordI (BitVec.ofNat 6 iv.length) (BitVec.ofNat 6 key.length) true mode, key ++ iv⟩
  | .encrypt data => ⟨encodeWordD (BitVec.ofNat 24 data.length) 0x2, data⟩
  | .decrypt data => ⟨encodeWordD (BitVec.ofNat 24 data.length) 0x3, data⟩
  | .getIv => ⟨encodeWordZ 0x4, []⟩
  | .getBlockSize => ⟨encodeWordZ 0x5, []⟩
  | .getKeySize => ⟨encodeWordZ 0x6, []⟩
  | .getMode => ⟨encodeWordZ 0x7, []⟩
  | .release => ⟨encodeWordZ 0x8, []⟩

/-! ## The opcode table -/

/-- A row of spec/opcode_table.json: an instruction's word has `word AND mask = pattern`. -/
structure TableRow where
  mask : BitVec 32
  pattern : BitVec 32
deriving DecidableEq, Repr

/-- The row of spec/opcode_table.json an instruction belongs to. -/
def Instr.tableRow : Instr → TableRow
  | .init _ _ _ => ⟨0xFFF0000F, 0x00000001⟩
  | .encrypt _ => ⟨0x000000FF, 0x00000002⟩
  | .decrypt _ => ⟨0x000000FF, 0x00000003⟩
  | .getIv => ⟨0xFFFFFFFF, 0x00000004⟩
  | .getBlockSize => ⟨0xFFFFFFFF, 0x00000005⟩
  | .getKeySize => ⟨0xFFFFFFFF, 0x00000006⟩
  | .getMode => ⟨0xFFFFFFFF, 0x00000007⟩
  | .release => ⟨0xFFFFFFFF, 0x00000008⟩

/-- R73: how many payload bytes a word requires; 0 for a reserved opcode, which R71 rejects before the payload is
looked at. -/
def requiredPayload (w : BitVec 32) : Nat :=
  match (opField w).toNat with
  | 1 => initPayloadLength w
  | 2 => (lenField w).toNat
  | 3 => (lenField w).toNat
  | _ => 0

/-- The command of a table word: the low `nbits` bits of `w`, with a payload of zeros of the length R73 requires. -/
def tableCommand (nbits w : Nat) : Command :=
  let word := BitVec.ofNat 32 (w % 2 ^ nbits)
  ⟨word, List.replicate (requiredPayload word) 0⟩

/-- The instruction the decoder reads from a table word, `none` where it refuses. -/
def decodeTableWord (nbits w : Nat) : Option Instr := (decode (tableCommand nbits w)).toOption

end Sys2Proof
end

