-- ==== Sys2Proof/Machine/State.lean ====
section
/-! DEFINITION. The state of one core instance (10_state.md R21, R24), its host port, and why a step could stop. -/

namespace Sys2Proof.Machine

/-- S1, R24: the four values of the 2-bit `MODE` register, all legal. Their codes are `Mode.code` (R63). -/
inductive Mode where
  | ecb
  | cbc
  | cfb
  | ctr
deriving DecidableEq, Repr

/-- R191: the status codes, by name. Their numbers are `Status.code`. -/
inductive Status where
  | ok
  | invalidKeyLength
  | missingIV
  | invalidIVLength
  | invalidInputLength
  | partialBlockContinuation
  | unsupportedMode
  | notInitialised
  | illegalCommand
deriving DecidableEq, Repr

/-- The session context, R24: the registers S0 to S5 of one core. -/
structure Session where
  /-- S0 `CONFIGURED`: a session exists (R26). -/
  configured : Bool
  /-- S1 `MODE`, 2 bits (R27). -/
  mode : Mode
  /-- S2 `KLEN`, 6 bits: the key length in bytes, 0 when there is no session. -/
  klen : BitVec 6
  /-- S3 `RK[0..59]`: the round-key words (R28, R93). -/
  rk : Vector Word 60
  /-- S4 `CHAIN`, 128 bits: the feedback block or the counter (R29, R30). -/
  chain : Block
  /-- S5 `PARTIAL`: the last data block in CFB or CTR was shorter than 16 bytes (R31). -/
  partialFlag : Bool
deriving DecidableEq, Repr

/-- R190, R41: what a command returns, a status and an output payload. -/
structure Response where
  status : Status
  out : List Byte
deriving DecidableEq, Repr

/-- What the outside world does to the core: the host issues a command (R20, R50), or the core is reset between two
commands (R223). -/
inductive Event where
  | command (c : Command)
  | reset
deriving DecidableEq, Repr

/-- One core instance (R21) with its host port. The registers are the session context of R24 and nothing else: no
memory (R40), no program counter (R23), no status register (R32). The two port fields are the model's (log entries 1
and 2): what the host has issued and the core has not yet executed, and the responses the core has returned. -/
structure State where
  /-- The session registers S0 to S5. -/
  session : Session
  /-- Host port, in: the events still to take effect, in the order the host issues them (R50). -/
  input : List Event
  /-- Host port, out: the responses returned so far, oldest first. No command reads it (R32). -/
  responses : List Response
deriving DecidableEq, Repr

/-- R220, R24: every session register at its reset value. It is also what `RELEASE` leaves (R172). -/
def Session.reset : Session where
  configured := false
  mode := .ecb
  klen := 0
  rk := Vector.replicate 60 Word.zero
  chain := Block.zero
  partialFlag := false

/-- R220, R222: the core just out of reset. It waits for the host's first command: nothing has been issued and nothing
has been answered. -/
def State.reset : State where
  session := Session.reset
  input := []
  responses := []

/-- Why the machine would stop with a fault. There is no reason at all: R199 and R200, every error is a status in a
response and the core then takes the next command. -/
inductive Fault
deriving DecidableEq, Repr

/-- Why the machine would refuse an instruction. -/
inductive Refusal where
  /-- Raised by an arm of `exec` for an instruction that has no meaning yet. Safe: the run stops. No arm of this model
  raises it. -/
  | notModelled (mnemonic : String)
deriving DecidableEq, Repr

end Sys2Proof.Machine
end

