-- ==== Sys2Proof/Machine/Bytes.lean ====
section
/-! DEFINITION. Byte and block access, byte order and exclusive-or (00_scope.md R11, R12, R14; 20_memory.md R43;
10_state.md R30). -/

namespace Sys2Proof

/-- Byte `r` of a word (R12). -/
def Word.byte (w : Word) (r : Fin 4) : Byte :=
  match r with
  | 0 => w.a0
  | 1 => w.a1
  | 2 => w.a2
  | 3 => w.a3

/-- The word with byte `r` equal to `f r`. -/
def Word.ofFn (f : Fin 4 → Byte) : Word := ⟨f 0, f 1, f 2, f 3⟩

/-- R14: exclusive-or, byte by byte. -/
def Word.xor (a b : Word) : Word := Word.ofFn fun r => a.byte r ^^^ b.byte r

/-- The bytes of a word, `a0` first (R12). -/
def Word.toBytes (w : Word) : List Byte := [w.a0, w.a1, w.a2, w.a3]

/-- R12: the word read as a 32-bit number, `a0` most significant. -/
def Word.toBits (w : Word) : BitVec 32 := w.a0 ++ w.a1 ++ w.a2 ++ w.a3

/-- Column `c` of the state array (R13). -/
def Block.col (s : Block) (c : Fin 4) : Word :=
  match c with
  | 0 => s.c0
  | 1 => s.c1
  | 2 => s.c2
  | 3 => s.c3

/-- R13, R43: `s[r][c]`, row `r` of column `c`. -/
def Block.get (s : Block) (r c : Fin 4) : Byte := (s.col c).byte r

/-- The state array with `s[r][c]` equal to `f r c`. -/
def Block.ofFn (f : Fin 4 → Fin 4 → Byte) : Block :=
  ⟨Word.ofFn (f · 0), Word.ofFn (f · 1), Word.ofFn (f · 2), Word.ofFn (f · 3)⟩

/-- R14: exclusive-or, byte by byte. -/
def Block.xor (a b : Block) : Block := Block.ofFn fun r c => a.get r c ^^^ b.get r c

/-- R43: the flat byte sequence of a block, column by column. -/
def Block.toBytes (s : Block) : List Byte :=
  s.c0.toBytes ++ s.c1.toBytes ++ s.c2.toBytes ++ s.c3.toBytes

/-- R43: the block of a byte sequence of exactly 16 bytes; none for another length. -/
def Block.ofBytes? : List Byte → Option Block
  | [b0, b1, b2, b3, b4, b5, b6, b7, b8, b9, b10, b11, b12, b13, b14, b15] =>
    some ⟨⟨b0, b1, b2, b3⟩, ⟨b4, b5, b6, b7⟩, ⟨b8, b9, b10, b11⟩, ⟨b12, b13, b14, b15⟩⟩
  | _ => none

/-- R14: exclusive-or of byte sequences, as long as the shorter one. -/
def xorBytes (a b : List Byte) : List Byte := List.zipWith (· ^^^ ·) a b

/-- R30: the bytes read as one unsigned big-endian integer. -/
def bytesToNat (bs : List Byte) : Nat := bs.foldl (fun acc b => acc * 256 + b.toNat) 0

/-- R30: a block read as the 128-bit CTR counter, its first byte most significant. -/
def Block.toCounter (s : Block) : Nat := bytesToNat s.toBytes

/-- R30, R141: the block whose 128-bit counter is `n mod 2^128`: byte `r + 4*c` weighs `2^(8*(15-(r+4*c)))`. -/
def Block.ofCounter (n : Nat) : Block :=
  Block.ofFn fun r c => BitVec.ofNat 8 (n / 2 ^ (8 * (15 - (r.val + 4 * c.val))))

end Sys2Proof
end

