-- ==== Sys2Proof/Machine/Operands.lean ====
section
/-! DEFINITION. How the machine reads its operands: mode codes, lengths, and the split of a payload into blocks
(30_encoding.md R63, R67; 20_memory.md R42). -/

namespace Sys2Proof.Machine

/-- The direction of a data command (R37, R38). -/
inductive Dir where
  | enc
  | dec
deriving DecidableEq, Repr

/-- R63: the code of a mode, as the 2-bit `MODE` register holds it. -/
def Mode.code : Mode → BitVec 2
  | .ecb => 0
  | .cbc => 1
  | .cfb => 2
  | .ctr => 3

/-- R63: the mode a 3-bit `MODE` field names; codes 4 to 7 name none. -/
def Mode.ofField (f : BitVec 3) : Option Mode :=
  match f.toNat with
  | 0 => some .ecb
  | 1 => some .cbc
  | 2 => some .cfb
  | 3 => some .ctr
  | _ => none

/-- R25, R72: the key lengths the source allows. -/
def legalKeyLength (n : Nat) : Bool := n == 16 || n == 24 || n == 32

/-- R42, R143, R144: the 16-byte blocks of a payload in order, and the 0 to 15 bytes left over. -/
def splitBlocks : List Byte → List Block × List Byte
  | b0 :: b1 :: b2 :: b3 :: b4 :: b5 :: b6 :: b7 :: b8 :: b9 :: b10 :: b11 :: b12 :: b13 :: b14 :: b15 :: rest =>
    let tail := splitBlocks rest
    (⟨⟨b0, b1, b2, b3⟩, ⟨b4, b5, b6, b7⟩, ⟨b8, b9, b10, b11⟩, ⟨b12, b13, b14, b15⟩⟩ :: tail.1, tail.2)
  | short => ([], short)

/-- R42: the concatenation of output blocks, in order. -/
def joinBlocks (bs : List Block) : List Byte := bs.flatMap Block.toBytes

end Sys2Proof.Machine
end

