-- ==== Sys2Proof/Machine/Flags.lean ====
section
/-! DEFINITION. Which status a command ends with: the checks of 60_exceptions.md R191 in the order of R195. There are
no condition codes (10_state.md R32); the one lasting flag is `PARTIAL` (R31). -/

namespace Sys2Proof.Machine

/-- R191: the 8-bit number of a status. -/
def Status.code : Status → BitVec 8
  | .ok => 0
  | .invalidKeyLength => 1
  | .missingIV => 2
  | .invalidIVLength => 3
  | .invalidInputLength => 4
  | .partialBlockContinuation => 5
  | .unsupportedMode => 6
  | .notInitialised => 7
  | .illegalCommand => 8

/-- R163, R164: the chain value an `INIT` in mode `m` starts from. ECB ignores the IV; the other modes need one of 16
bytes. -/
def initialChain (m : Mode) (iv : Option (List Byte)) : Except Status Block :=
  match m, iv with
  | .ecb, _ => .ok Block.zero
  | _, none => .error .missingIV
  | _, some v =>
    match Block.ofBytes? v with
    | some b => .ok b
    | none => .error .invalidIVLength

/-- R160, R195 item 2: the checks of `INIT`, in order; when they pass, the mode and the first chain value. -/
def checkInit (mode : BitVec 3) (key : List Byte) (iv : Option (List Byte)) : Except Status (Mode × Block) :=
  if legalKeyLength key.length = false then .error .invalidKeyLength
  else
    match Mode.ofField mode with
    | none => .error .unsupportedMode
    | some m =>
      match initialChain m iv with
      | .error e => .error e
      | .ok chain => .ok (m, chain)

/-- R166, R195 items 3 and 4: the checks of `ENCRYPT` and `DECRYPT` on `len` data bytes. -/
def dataStatus (r : Session) (len : Nat) : Status :=
  if r.configured = false then .notInitialised
  else
    match r.mode with
    | .ecb | .cbc => if len % 16 ≠ 0 then .invalidInputLength else .ok
    | .cfb | .ctr => if r.partialFlag = true ∧ len > 0 then .partialBlockContinuation else .ok

end Sys2Proof.Machine
end

