-- ==== Sys2Proof/Machine/Galois.lean ====
section
/-! DEFINITION. GF(2^8) arithmetic (41_round_transform.md R100 to R104), the affine map of the S-box construction
(R107) and column polynomials (R112). -/

namespace Sys2Proof.Machine

/-- R102: `xtime(b) = (b << 1)[7:0] XOR (1B if b[7] = 1 else 00)`. -/
def xtime (b : Byte) : Byte := (b <<< 1) ^^^ (if b.getLsbD 7 then 0x1b else 0x00)

/-- `xtime` applied `i` times (R103). -/
def xtimeIter : Nat → Byte → Byte
  | 0, a => a
  | i + 1, a => xtime (xtimeIter i a)

/-- R103: `a • b`, the XOR over the set bits `i` of `b` of `xtime` applied `i` times to `a`. -/
def gfMul (a b : Byte) : Byte :=
  (List.range 8).foldl (fun acc i => if b.getLsbD i then acc ^^^ xtimeIter i a else acc) 0

/-- R100, R101: the product of two bytes as polynomials over GF(2), before reduction (degree at most 14). -/
def polyMul (a b : Byte) : BitVec 15 :=
  (List.range 8).foldl (fun acc i => if b.getLsbD i then acc ^^^ (a.setWidth 15 <<< i) else acc) 0

/-- R101: the remainder modulo `m(x) = x^8 + x^4 + x^3 + x + 1` (0x11B), by clearing bits 14 down to 8. -/
def polyMod (p : BitVec 15) : Byte :=
  ((List.range 7).foldl
    (fun acc k => if acc.getLsbD (14 - k) then acc ^^^ (0x11b#15 <<< (6 - k)) else acc) p).setWidth 8

/-- Bit `i` of the affine map of R107 with the constant `c = 63`. -/
def affineBit (y : Byte) (i : Nat) : Bool :=
  y.getLsbD i ^^ y.getLsbD ((i + 4) % 8) ^^ y.getLsbD ((i + 5) % 8) ^^ y.getLsbD ((i + 6) % 8)
    ^^ y.getLsbD ((i + 7) % 8) ^^ (0x63#8).getLsbD i

/-- R107: the affine map `A` over GF(2). -/
def affine (y : Byte) : Byte :=
  (List.range 8).foldl (fun acc i => if affineBit y i then acc ||| (1#8 <<< i) else acc) 0

/-- R112, R115: the product of two column polynomials modulo `x^4 + 1`; byte `k` of a word is the coefficient of
`x^k`, and the coefficient of `x^r` collects every pair of exponents with sum `r` modulo 4. -/
def polyColumnMul (a s : Word) : Word :=
  Word.ofFn fun r =>
    gfMul (a.byte r) (s.byte 0) ^^^ gfMul (a.byte (r - 1)) (s.byte 1)
      ^^^ gfMul (a.byte (r - 2)) (s.byte 2) ^^^ gfMul (a.byte (r - 3)) (s.byte 3)

end Sys2Proof.Machine
end

