-- ==== Sys2Proof/Machine/KeySchedule.lean ====
section
/-! DEFINITION. The `aes_key_schedule` block (40_key_schedule.md): a pure function of the key (R36, R89). -/

namespace Sys2Proof.Machine

/-- R25, R80: `Nr = Nk + 6`. -/
def roundsOf (nk : Nat) : Nat := nk + 6

/-- R25: `Nk = KLEN / 4` for the register `KLEN`. -/
def nkOfKlen (klen : BitVec 6) : Nat := klen.toNat / 4

/-- R80: the number of words of a schedule, `4*(Nr+1)`. -/
def scheduleLength (nk : Nat) : Nat := 4 * (roundsOf nk + 1)

/-- R82, R44: the key as words, `w[i] = (key[4i], key[4i+1], key[4i+2], key[4i+3])`. -/
def keyWords : List Byte → List Word
  | b0 :: b1 :: b2 :: b3 :: rest => ⟨b0, b1, b2, b3⟩ :: keyWords rest
  | _ => []

/-- R84: one-byte cyclic left rotation. -/
def rotWord (w : Word) : Word := ⟨w.a1, w.a2, w.a3, w.a0⟩

/-- R85: the S-box on each byte. -/
def subWord (w : Word) : Word := Word.ofFn fun r => sbox (w.byte r)

/-- Word `i` of a schedule under construction; a free value where there is no such word (log entry 7). -/
def scheduleWord (w : List Word) (i : Nat) : Word :=
  if h : i < w.length then w[i] else Config.noSuchWord i

/-- R86: the word `(Rcon[j], 00, 00, 00)`. -/
def rconWord (j : Nat) : Word := ⟨rcon j, 0x00, 0x00, 0x00⟩

/-- R87, R88: what the loop makes of `temp = w[i-1]` before it is XORed into `w[i-Nk]`. -/
def expandTemp (nk i : Nat) (temp : Word) : Word :=
  if i % nk = 0 then (subWord (rotWord temp)).xor (rconWord (i / nk))
  else if nk = 8 ∧ i % nk = 4 then subWord temp
  else temp

/-- R87: the next word of a schedule of which `w` is done, `w[i] = w[i-Nk] XOR temp` with `i = len(w)`. -/
def expandNext (nk : Nat) (w : List Word) : Word :=
  (scheduleWord w (w.length - nk)).xor (expandTemp nk w.length (scheduleWord w (w.length - 1)))

/-- R87: the expansion loop, `n` words to go. -/
def expandLoop (nk : Nat) : Nat → List Word → List Word
  | 0, w => w
  | n + 1, w => expandLoop nk n (w ++ [expandNext nk w])

/-- R87, R80: the whole schedule that starts with the `Nk` words `w`. -/
def expandWords (nk : Nat) (w : List Word) : List Word := expandLoop nk (scheduleLength nk - nk) w

/-- R87: the words `w[0 .. 4*(Nr+1))` of a key of 16, 24 or 32 bytes. -/
def keyExpansion (key : List Byte) : List Word := expandWords (key.length / 4) (keyWords key)

/-- R93: the round-key file of a schedule, its words first and `00000000` in the rest. -/
def storeSchedule (w : List Word) : Vector Word 60 :=
  Vector.ofFn fun i => w.getD i.val Word.zero

end Sys2Proof.Machine
end

