-- ==== Sys2Proof/Machine/RoundTransform.lean ====
section
/-! DEFINITION. The `aes_round_transform` block (41_round_transform.md): pure and total (R37, R125). -/

namespace Sys2Proof.Machine

/-! ## Round operations -/

/-- R105. -/
def subBytes (s : Block) : Block := Block.ofFn fun r c => sbox (s.get r c)

/-- R106. -/
def invSubBytes (s : Block) : Block := Block.ofFn fun r c => invSbox (s.get r c)

/-- R110: `s'[r][c] = s[r][(c + r) mod 4]`. -/
def shiftRows (s : Block) : Block := Block.ofFn fun r c => s.get r (c + r)

/-- R111: `s'[r][c] = s[r][(c - r) mod 4]`. -/
def invShiftRows (s : Block) : Block := Block.ofFn fun r c => s.get r (c - r)

/-- R113, one column. -/
def mixColumn (s : Word) : Word where
  a0 := gfMul 0x02 s.a0 ^^^ gfMul 0x03 s.a1 ^^^ gfMul 0x01 s.a2 ^^^ gfMul 0x01 s.a3
  a1 := gfMul 0x01 s.a0 ^^^ gfMul 0x02 s.a1 ^^^ gfMul 0x03 s.a2 ^^^ gfMul 0x01 s.a3
  a2 := gfMul 0x01 s.a0 ^^^ gfMul 0x01 s.a1 ^^^ gfMul 0x02 s.a2 ^^^ gfMul 0x03 s.a3
  a3 := gfMul 0x03 s.a0 ^^^ gfMul 0x01 s.a1 ^^^ gfMul 0x01 s.a2 ^^^ gfMul 0x02 s.a3

/-- R116, one column. -/
def invMixColumn (s : Word) : Word where
  a0 := gfMul 0x0e s.a0 ^^^ gfMul 0x0b s.a1 ^^^ gfMul 0x0d s.a2 ^^^ gfMul 0x09 s.a3
  a1 := gfMul 0x09 s.a0 ^^^ gfMul 0x0e s.a1 ^^^ gfMul 0x0b s.a2 ^^^ gfMul 0x0d s.a3
  a2 := gfMul 0x0d s.a0 ^^^ gfMul 0x09 s.a1 ^^^ gfMul 0x0e s.a2 ^^^ gfMul 0x0b s.a3
  a3 := gfMul 0x0b s.a0 ^^^ gfMul 0x0d s.a1 ^^^ gfMul 0x09 s.a2 ^^^ gfMul 0x0e s.a3

/-- R113, R114: each column alone. -/
def mixColumns (s : Block) : Block :=
  ⟨mixColumn s.c0, mixColumn s.c1, mixColumn s.c2, mixColumn s.c3⟩

/-- R116: each column alone. -/
def invMixColumns (s : Block) : Block :=
  ⟨invMixColumn s.c0, invMixColumn s.c1, invMixColumn s.c2, invMixColumn s.c3⟩

/-- `RK[i]` (R15, R24 S3); a free value at an index past the file (log entry 7). -/
def rkWord (rk : Vector Word 60) (i : Nat) : Word :=
  if h : i < 60 then rk[i] else Config.noSuchWord i

/-- R118: byte `r` of `RK[4*round + c]` meets `s[r][c]`. -/
def addRoundKey (rk : Vector Word 60) (round : Nat) (s : Block) : Block :=
  Block.ofFn fun r c => s.get r c ^^^ (rkWord rk (4 * round + c.val)).byte r

/-! ## The ciphers -/

/-- R120: the body of the round loop. -/
def encRound (rk : Vector Word 60) (s : Block) (round : Nat) : Block :=
  addRoundKey rk round (mixColumns (shiftRows (subBytes s)))

/-- R121: the body of the round loop. -/
def decRound (rk : Vector Word 60) (s : Block) (round : Nat) : Block :=
  invMixColumns (addRoundKey rk round (invSubBytes (invShiftRows s)))

/-- The rounds `1 .. Nr-1` in rising order (R120). -/
def middleRounds (nr : Nat) : List Nat := List.range' 1 (nr - 1)

/-- R120: `Cipher(in, RK, Nr)`. -/
def cipher (rk : Vector Word 60) (nr : Nat) (block : Block) : Block :=
  let s := (middleRounds nr).foldl (encRound rk) (addRoundKey rk 0 block)
  addRoundKey rk nr (shiftRows (subBytes s))

/-- R121: `InvCipher(in, RK, Nr)`, every step of `cipher` undone in reverse order. -/
def invCipher (rk : Vector Word 60) (nr : Nat) (block : Block) : Block :=
  let s := (middleRounds nr).reverse.foldl (decRound rk) (addRoundKey rk nr block)
  addRoundKey rk 0 (invSubBytes (invShiftRows s))

/-- R130: `Enc(X)` under a session's round keys. -/
def Session.enc (r : Session) (x : Block) : Block := cipher r.rk (roundsOf (nkOfKlen r.klen)) x

/-- R130: `Dec(X)` under a session's round keys. -/
def Session.dec (r : Session) (x : Block) : Block := invCipher r.rk (roundsOf (nkOfKlen r.klen)) x

end Sys2Proof.Machine
end

