-- ==== Sys2Proof/Machine/ModeEngines.lean ====
section
/-! DEFINITION. The four mode engines and the driver that threads the chain value through the chunks of a payload
(42_mode_engines.md). -/

namespace Sys2Proof.Machine

/-! ## Per-block rules: from the chain value `S` and a chunk `X` to the output chunk and the next chain value (R38) -/

/-- R131, R132: ECB; the chain value is left as it is. -/
def ecbBlock (dir : Dir) (r : Session) (S X : Block) : Block × Block :=
  match dir with
  | .enc => (r.enc X, S)
  | .dec => (r.dec X, S)

/-- R133, R134: CBC; the next chain value is the ciphertext block. -/
def cbcBlock (dir : Dir) (r : Session) (S X : Block) : Block × Block :=
  match dir with
  | .enc =>
    let Y := r.enc (X.xor S)
    (Y, Y)
  | .dec => ((r.dec X).xor S, X)

/-- R135, R136: CFB, full chunk; the keystream is `Enc(S)` in both directions (R142). -/
def cfbBlock (dir : Dir) (r : Session) (S X : Block) : Block × Block :=
  let Y := (r.enc S).xor X
  match dir with
  | .enc => (Y, Y)
  | .dec => (Y, X)

/-- R141: the counter plus one modulo `2^128`, big-endian. -/
def inc128 (S : Block) : Block := Block.ofCounter ((S.toCounter + 1) % 2 ^ 128)

/-- R138, R139: CTR, full chunk, the same in both directions. -/
def ctrBlock (r : Session) (S X : Block) : Block × Block := ((r.enc S).xor X, inc128 S)

/-- R137: the block `Ct || K[L..16)` of `L` ciphertext bytes and a keystream block. -/
def completeWith (ct : List Byte) (K : Block) : Block :=
  Block.ofFn fun r c => (ct ++ K.toBytes.drop ct.length).getD (r.val + 4 * c.val) 0

/-- R137: CFB, partial chunk of 1 to 15 bytes. -/
def cfbPartial (dir : Dir) (r : Session) (S : Block) (x : List Byte) : List Byte × Block :=
  let K := r.enc S
  let y := xorBytes K.toBytes x
  match dir with
  | .enc => (y, completeWith y K)
  | .dec => (y, completeWith x K)

/-- R140: CTR, partial chunk of 1 to 15 bytes, the same in both directions. -/
def ctrPartial (r : Session) (S : Block) (x : List Byte) : List Byte × Block :=
  (xorBytes (r.enc S).toBytes x, inc128 S)

/-! ## The driver -/

/-- The loop of R143 and R144 over full blocks: each block's rule starts from the chain value the one before left. -/
def runBlocks (rule : Block → Block → Block × Block) : Block → List Block → List Block × Block
  | S, [] => ([], S)
  | S, X :: rest =>
    let y := rule S X
    let run := runBlocks rule y.2 rest
    (y.1 :: run.1, run.2)

/-- What a data command leaves: its output payload and the registers it may write (R166). -/
structure DataResult where
  out : List Byte
  chain : Block
  partialFlag : Bool
deriving DecidableEq, Repr

/-- R143: the driver for ECB and CBC. `PARTIAL` is not written. -/
def driveFull (rule : Block → Block → Block × Block) (r : Session) (data : List Byte) : DataResult :=
  let run := runBlocks rule r.chain (splitBlocks data).1
  ⟨joinBlocks run.1, run.2, r.partialFlag⟩

/-- R144: the driver for CFB and CTR. A last chunk shorter than 16 bytes goes through `short` and sets `PARTIAL`. -/
def driveStream (rule : Block → Block → Block × Block) (short : Block → List Byte → List Byte × Block)
    (r : Session) (data : List Byte) : DataResult :=
  let run := runBlocks rule r.chain (splitBlocks data).1
  match (splitBlocks data).2 with
  | [] => ⟨joinBlocks run.1, run.2, r.partialFlag⟩
  | x :: xs =>
    let last := short run.2 (x :: xs)
    ⟨joinBlocks run.1 ++ last.1, last.2, true⟩

/-- R143, R144: the driver of the session's mode in one direction. -/
def runEngine (dir : Dir) (r : Session) (data : List Byte) : DataResult :=
  match r.mode with
  | .ecb => driveFull (ecbBlock dir r) r data
  | .cbc => driveFull (cbcBlock dir r) r data
  | .cfb => driveStream (cfbBlock dir r) (cfbPartial dir r) r data
  | .ctr => driveStream (ctrBlock r) (ctrPartial r) r data

end Sys2Proof.Machine
end

