-- ==== Sys2Proof/Machine/Ops.lean ====
section
/-! DEFINITION. The shared operations over the state: taking an event, writing registers, ending a command (00_scope.md
R15, R16; 60_exceptions.md R190 to R200). -/

namespace Sys2Proof.Machine

/-- The outcome of a step of this machine. -/
abbrev Result := Host.Outcome State Fault Refusal

/-- R16, R190: `respond(status, OUT)` ends the command with a response. -/
def State.respond (s : State) (status : Status) (out : List Byte) : Result :=
  .next { s with responses := s.responses ++ [⟨status, out⟩] }

/-- R16, R192, R199: `raise E`, the whole of what an error does. It is this machine's taking of an exception: no state
is saved, no mode changes, no control is transferred; the response is `E` with an empty output. There is no return from
it (R200): the core takes the next command. -/
def State.raise (s : State) (e : Status) : Result := s.respond e []

/-- R15: write the whole session context at once. -/
def State.writeSession (s : State) (r : Session) : State := { s with session := r }

/-- R160: the session an `OK` `INIT` constructs, all six registers (R226). -/
def Session.construct (m : Mode) (key : List Byte) (chain : Block) : Session where
  configured := true
  mode := m
  klen := BitVec.ofNat 6 key.length
  rk := storeSchedule (keyExpansion key)
  chain := chain
  partialFlag := false

/-- R143, R144, R148: the register writes of a data command, together at its end. -/
def Session.advance (r : Session) (d : DataResult) : Session :=
  { r with chain := d.chain, partialFlag := d.partialFlag }

/-- R166, R167: a data command in one direction, the checks first, then the driver. -/
def dataCommand (dir : Dir) (data : List Byte) (s : State) : Result :=
  match dataStatus s.session data.length with
  | .ok =>
    let d := runEngine dir s.session data
    (s.writeSession (s.session.advance d)).respond .ok d.out
  | e => s.raise e

/-- R26, R196: a query of the session, which ends `NotInitialised` when there is none. -/
def sessionQuery (out : Session → List Byte) (s : State) : Result :=
  if s.session.configured = false then s.raise .notInitialised else s.respond .ok (out s.session)

/-- R50: the next event the host has issued, and the state without it; none while the host has issued nothing more. -/
def State.takeEvent (s : State) : Option (Event × State) :=
  match s.input with
  | [] => none
  | e :: rest => some (e, { s with input := rest })

/-- R220, R223: reset, a step of its own between two commands. It sets every session register and returns no response;
what the host port holds stays (log entry 4). -/
def State.applyReset (s : State) : State := s.writeSession Session.reset

end Sys2Proof.Machine
end

