-- ==== Sys2Proof/Machine/DataCommands.lean ====
section
/-! DEFINITION. The data commands: `ENCRYPT` and `DECRYPT` (43_commands.md). -/

namespace Sys2Proof.Machine

/-- R166: `ENCRYPT`. -/
def execEncrypt (data : List Byte) (s : State) : Result := dataCommand .enc data s

/-- R167: `DECRYPT`. -/
def execDecrypt (data : List Byte) (s : State) : Result := dataCommand .dec data s

end Sys2Proof.Machine
end

