-- ==== Sys2Proof/Machine/QueryCommands.lean ====
section
/-! DEFINITION. The queries: `GET_IV`, `GET_BLOCK_SIZE`, `GET_KEY_SIZE` and `GET_MODE` (43_commands.md). -/

namespace Sys2Proof.Machine

/-- R168, R45: `GET_IV` returns `CHAIN[0..16)`. -/
def execGetIv (s : State) : Result := sessionQuery (fun r => r.chain.toBytes) s

/-- R169: `GET_BLOCK_SIZE` returns the byte 16 and needs no session. -/
def execGetBlockSize (s : State) : Result := s.respond .ok [0x10]

/-- R170: `GET_KEY_SIZE` returns `KLEN` in one byte. -/
def execGetKeySize (s : State) : Result := sessionQuery (fun r => [r.klen.setWidth 8]) s

/-- R171: `GET_MODE` returns `zext_8(MODE)`. -/
def execGetMode (s : State) : Result := sessionQuery (fun r => [r.mode.code.setWidth 8]) s

end Sys2Proof.Machine
end

