-- ==== Sys2Proof/Machine/SessionCommands.lean ====
section
/-! DEFINITION. The commands that construct and destroy a session: `INIT` and `RELEASE` (43_commands.md). -/

namespace Sys2Proof.Machine

/-- R160 to R165: `INIT`. -/
def execInit (mode : BitVec 3) (key : List Byte) (iv : Option (List Byte)) (s : State) : Result :=
  match checkInit mode key iv with
  | .error e => s.raise e
  | .ok (m, chain) => (s.writeSession (Session.construct m key chain)).respond .ok []

/-- R172: `RELEASE`. -/
def execRelease (s : State) : Result := (s.writeSession Session.reset).respond .ok []

end Sys2Proof.Machine
end

