-- ==== Sys2Proof/Machine/Dispatch.lean ====
section
/-! DEFINITION. One arm per constructor of Instr. -/

namespace Sys2Proof.Machine

def exec (i : Instr) (s : State) : Host.Outcome State Fault Refusal :=
  match i with
  | .init mode key iv => Sys2Proof.Machine.execInit mode key iv s
  | .encrypt data => Sys2Proof.Machine.execEncrypt data s
  | .decrypt data => Sys2Proof.Machine.execDecrypt data s
  | .getIv => Sys2Proof.Machine.execGetIv s
  | .getBlockSize => Sys2Proof.Machine.execGetBlockSize s
  | .getKeySize => Sys2Proof.Machine.execGetKeySize s
  | .getMode => Sys2Proof.Machine.execGetMode s
  | .release => Sys2Proof.Machine.execRelease s

end Sys2Proof.Machine
end

