-- ==== Sys2Proof/Machine/Step.lean ====
section
/-! DEFINITION. One step of the core: one event of the host (10_state.md R20; 70_reset_and_hazards.md R223, R234). -/

namespace Sys2Proof.Machine

/-- R20, R50: the core takes the next event the host has issued and executes it to completion. With nothing issued it is
idle and keeps every register (R206, R222). An illegal command ends `IllegalCommand`, having changed nothing (R71). -/
def step (s : State) : Host.Outcome State Fault Refusal :=
  match s.takeEvent with
  | none => .next s
  | some (.reset, s') => .next s'.applyReset
  | some (.command c, s') =>
    match decode c with
    | .ok i => exec i s'
    | .error _ => s'.raise .illegalCommand

/-- The state whose next step takes the command of a table word: the host has issued it before anything else that is
still waiting (log entry 5). -/
def State.withFetchWord (s : State) (nbits w : Nat) : State :=
  { s with input := .command (tableCommand nbits w) :: s.input }

end Sys2Proof.Machine
end

