-- ==== Sys2Proof/Machine/Platform.lean ====
section
/-! DEFINITION. Several cores and several hosts (10_state.md R21; 20_memory.md R55, R56; 60_exceptions.md R204). The
machine of Step.lean is one core; every rule holds per core. -/

namespace Sys2Proof.Machine

/-- R204: a platform of `n` core instances, `n` the spec's open parameter `NUM_INSTANCES` (at least 1), an argument here
(log entry 9). -/
structure Platform (n : Nat) where
  cores : Vector State n
deriving DecidableEq, Repr

/-- R204: every core starts from its own reset. -/
def platformReset (n : Nat) : Platform n := ⟨Vector.replicate n State.reset⟩

/-- R21, R204: core `i` takes a step of its own; the others do nothing. -/
def stepCore {n : Nat} (p : Platform n) (i : Fin n) : Host.Outcome (Platform n) Fault Refusal :=
  match step (p.cores.get i) with
  | .next s => .next ⟨p.cores.set i.val s i.isLt⟩
  | .fault f => .fault f
  | .refused r => .refused r

/-- R50: a host issues one more event to a core, behind what is still waiting there. -/
def State.issue (s : State) (e : Event) : State := { s with input := s.input ++ [e] }

/-- R56: the orders in which one core may take what several hosts issue to it: whole events, each host's own in the
order that host issues them, and otherwise any order at all (log entry 10). `hosts` lists what each host issues. -/
inductive Interleaving : List (List Event) → List Event → Prop where
  | done (hosts : List (List Event)) (h : ∀ q ∈ hosts, q = []) : Interleaving hosts []
  | take (hosts : List (List Event)) (k : Nat) (e : Event) (rest order : List Event)
      (h : hosts[k]? = some (e :: rest)) (next : Interleaving (hosts.set k rest) order) :
      Interleaving hosts (e :: order)

end Sys2Proof.Machine
end

