-- ==== Sys2Proof/Safety.lean ====
section
/-! DEFINITION. The terms the claims use: the invariant of a session and of a core, and runs of several steps. -/

namespace Sys2Proof.Machine

/-- R25: `Nk` of a session. -/
def Session.nk (r : Session) : Nat := nkOfKlen r.klen

/-- R28: the key words of a session, `RK[0..Nk)`. -/
def Session.keyWords (r : Session) : List Word := r.rk.toList.take r.nk

/-- What the spec says of every session context that commands and reset can produce (R24, R28, R29, R31). -/
structure Session.Inv (r : Session) : Prop where
  /-- R24, R220, R172: with no session every register holds its reset value. -/
  noSession : r.configured = false → r = Session.reset
  /-- R24: `KLEN` is 16, 24 or 32 while a session exists. -/
  keyLength : r.configured = true → r.klen = 16 ∨ r.klen = 24 ∨ r.klen = 32
  /-- R24, R28, R93: `RK` is the schedule of the key it starts with, and zero beyond it. -/
  schedule : r.configured = true → r.rk = storeSchedule (expandWords r.nk r.keyWords)
  /-- R29: `CHAIN` holds `0^16` in ECB. -/
  ecbChain : r.mode = .ecb → r.chain = Block.zero
  /-- R31: `PARTIAL` stays 0 in ECB and CBC. -/
  partialMode : r.partialFlag = true → r.mode = .cfb ∨ r.mode = .ctr

/-- The invariant of a core: its session's, and R41 of every response it has returned (`OUT` is empty on every status
other than `OK`). -/
structure State.Inv (s : State) : Prop where
  session : s.session.Inv
  responses : ∀ r ∈ s.responses, r.status ≠ .ok → r.out = []

/-- `k` steps of a core. -/
def run (k : Nat) (s : State) : Host.Outcome State Fault Refusal := Host.Core.run Sys2Proof.core k s

/-- A core with exactly these commands issued to it and nothing else. -/
def State.withCommands (s : State) (is : List Instr) : State :=
  { s with input := is.map fun i => .command (encode i) }

/-- R11: the `n` bytes of a hexadecimal string, its first two digits first; `v` is the string read as a number. -/
def bytesOfHex (n v : Nat) : List Byte := (List.range n).map fun i => BitVec.ofNat 8 (v / 256 ^ (n - 1 - i))

/-- How many of a list of events are commands, which the core answers (R190), and not resets. -/
def commandCount (es : List Event) : Nat :=
  es.countP fun e => match e with
    | .command _ => true
    | .reset => false

/-- R47, R145, R146: a session takes `len` bytes of data: a multiple of 16 in ECB and CBC, any length in CFB and CTR
unless a partial chunk came before. -/
def Session.accepts (r : Session) (len : Nat) : Prop :=
  match r.mode with
  | .ecb | .cbc => len % 16 = 0
  | .cfb | .ctr => r.partialFlag = false ∨ len = 0

end Sys2Proof.Machine
end

