-- ==== Sys2Proof/Certificates/Slice0/Obligations.lean ====
section
/-! DEFINITION. The statements for the provers. Each says in its docstring which rules of spec/ it formalises. A
conclusion `exec i s = .next t` with `t` written out states the whole effect: every register, the waiting events and
the responses. -/

open Sys2Proof Sys2Proof.Machine

/-! ## Encoding -/

/-- 30_encoding.md R62, R64, R65, R67, R74: decoding the encoding of a well-formed instruction gives it back, for every
instruction and every operand the encoding admits. -/
def Obligations.DecodeOfEncodeIsIdentity : Prop :=
  ∀ i : Instr, i.wf = true → decode (encode i) = .ok i

/-- 30_encoding.md R60, R66, R67, R74: a command that decodes is exactly the encoding of what it decodes to, so no two
commands mean the same instruction and no bit of a word is ignored. -/
def Obligations.EncodeOfDecodeIsIdentity : Prop :=
  ∀ (c : Command) (i : Instr), decode c = .ok i → i.wf = true ∧ encode i = c

/-- 30_encoding.md R70, R73 and opcode_table.json: the word of a decoded command has the fixed bits of its table row and
no other row's, and its payload has the length R73 requires. -/
def Obligations.DecodedCommandFitsItsTableRow : Prop :=
  ∀ (c : Command) (i : Instr), decode c = .ok i →
    c.word &&& i.tableRow.mask = i.tableRow.pattern ∧ c.payload.length = requiredPayload c.word ∧
    ∀ j : Instr, c.word &&& j.tableRow.mask = j.tableRow.pattern → j.tableRow = i.tableRow

/-- 30_encoding.md R71, R73; 60_exceptions.md R197: a command ends `IllegalCommand`, having changed nothing, for a
reserved opcode, a non-zero reserved field, `INIT` with `IVP = 0` and `IVLEN != 0` or a payload of another length than
the word requires, and for nothing else. The fields are read off the word as a number, not by the decoder. -/
def Obligations.IllegalCommandForTheReservedEncodingsOnly : Prop :=
  ∀ (s : State) (c : Command) (rest : List Event), s.input = .command c :: rest →
    let w := c.word.toNat
    let op := w % 16
    let ivp := w / 2 ^ 7 % 2
    let klen := w / 2 ^ 8 % 64
    let ivlen := w / 2 ^ 14 % 64
    let illegalWord : Prop :=
      op = 0 ∨ 9 ≤ op ∨ (op = 1 ∧ (w / 2 ^ 20 ≠ 0 ∨ (ivp = 0 ∧ ivlen ≠ 0))) ∨
        ((op = 2 ∨ op = 3) ∧ w / 16 % 16 ≠ 0) ∨ (4 ≤ op ∧ op ≤ 8 ∧ w / 16 ≠ 0)
    let need :=
      if op = 1 then klen + (if ivp = 1 then ivlen else 0) else if op = 2 ∨ op = 3 then w / 2 ^ 8 else 0
    (illegalWord ∨ c.payload.length ≠ need →
      step s = .next { s with input := rest, responses := s.responses ++ [⟨.illegalCommand, []⟩] }) ∧
    (¬illegalWord → c.payload.length = need →
      ∃ t r, step s = .next t ∧ t.responses = s.responses ++ [r] ∧ r.status ≠ .illegalCommand)

/-- 30_encoding.md R78: the spec's example words, with payloads of the lengths they require, decode to the commands they
are examples of. -/
def Obligations.SpecExampleWordsDecode : Prop :=
  (∀ key : List Byte, key.length = 16 → decode ⟨0x00001001, key⟩ = .ok (.init 0 key none)) ∧
  (∀ key iv : List Byte, key.length = 16 → iv.length = 16 →
    decode ⟨0x00041091, key ++ iv⟩ = .ok (.init 1 key (some iv)) ∧
    decode ⟨0x000410A1, key ++ iv⟩ = .ok (.init 2 key (some iv)) ∧
    decode ⟨0x000410B1, key ++ iv⟩ = .ok (.init 3 key (some iv))) ∧
  (∀ key : List Byte, key.length = 24 → decode ⟨0x00001801, key⟩ = .ok (.init 0 key none)) ∧
  (∀ key : List Byte, key.length = 32 → decode ⟨0x00002001, key⟩ = .ok (.init 0 key none)) ∧
  (∀ data : List Byte, data.length = 16 → decode ⟨0x00001002, data⟩ = .ok (.encrypt data)) ∧
  (∀ data : List Byte, data.length = 64 →
    decode ⟨0x00004002, data⟩ = .ok (.encrypt data) ∧ decode ⟨0x00004003, data⟩ = .ok (.decrypt data)) ∧
  decode ⟨0x00000004, []⟩ = .ok .getIv ∧ decode ⟨0x00000008, []⟩ = .ok .release

/-! ## The machine -/

/-- 10_state.md R20, 30_encoding.md R74: when the next event is a command that decodes to an instruction, the step is
that instruction's execution on the state without the event. -/
def Obligations.StepRunsTheDecodedCommand : Prop :=
  ∀ (s : State) (c : Command) (rest : List Event) (i : Instr),
    s.input = .command c :: rest → decode c = .ok i → step s = exec i { s with input := rest }

/-- 10_state.md R20, 60_exceptions.md R206: with no event the step changes nothing at all. That an idle core takes a step
is the model's choice (log entry 3). -/
def Obligations.IdleCoreChangesNothing : Prop :=
  ∀ s : State, s.input = [] → step s = .next s

/-- 60_exceptions.md R192, with R190: every command is answered in one step by exactly one response, and a command whose
status is not `OK` writes no register and returns an empty output. -/
def Obligations.FailedCommandsWriteNothing : Prop :=
  ∀ (s : State) (c : Command) (rest : List Event), s.input = .command c :: rest →
    ∃ t r, step s = .next t ∧ t.input = rest ∧ t.responses = s.responses ++ [r] ∧
      (r.status ≠ .ok → t.session = s.session ∧ r.out = [])

/-- 20_memory.md R50, 60_exceptions.md R190, 70_reset_and_hazards.md R234, with log entries 1 and 4, the model's choices:
after as many steps as events are waiting, all of them have taken effect and the core has returned one response per
command, behind the earlier ones. That a reset keeps the commands waiting behind it, and answers nothing, is the model's
choice (log entry 4, DESIGN CHOICE, unsafe), not the spec's. -/
def Obligations.EveryIssuedCommandIsAnswered : Prop :=
  ∀ s : State, ∃ t rs, run s.input.length s = .next t ∧ t.input = [] ∧ t.responses = s.responses ++ rs ∧
    rs.length = commandCount s.input

/-- 70_reset_and_hazards.md R220: reset sets every session register to its reset value, and the result is the registers'
state that `RELEASE` gives and that the core starts in. -/
def Obligations.ResetClearsEveryRegister : Prop :=
  ∀ (s : State) (rest : List Event), s.input = .reset :: rest →
    ∃ t u, step s = .next t ∧ t.session.configured = false ∧ t.session.mode = .ecb ∧ t.session.klen = 0 ∧
      (∀ i (h : i < 60), t.session.rk[i] = ⟨0, 0, 0, 0⟩) ∧ t.session.chain.toBytes = List.replicate 16 0 ∧
      t.session.partialFlag = false ∧ exec .release s = .next u ∧ u.session = t.session ∧
      State.reset.session = t.session

/-- 70_reset_and_hazards.md R223 with log entry 4, the model's choice: reset is a step of its own that returns no
response, and what waits behind it at the host port stays. -/
def Obligations.ResetIsAStepWithoutAResponse : Prop :=
  ∀ (s : State) (rest : List Event), s.input = .reset :: rest →
    step s = .next { session := Session.reset, input := rest, responses := s.responses }

/-- 70_reset_and_hazards.md R224: what the host observes of a core without a session, command by command. `INIT` is
stated apart. -/
def Obligations.ResponsesRightAfterReset : Prop :=
  ∀ (s : State) (data : List Byte), s.session = Session.reset →
    exec .getBlockSize s = .next { s with responses := s.responses ++ [⟨.ok, [0x10]⟩] } ∧
    exec .release s = .next { s with responses := s.responses ++ [⟨.ok, []⟩] } ∧
    ∀ i ∈ [Instr.encrypt data, .decrypt data, .getIv, .getKeySize, .getMode],
      exec i s = .next { s with responses := s.responses ++ [⟨.notInitialised, []⟩] }

/-- 10_state.md R24, R28, R29, R31: the core just out of reset meets the invariant. -/
def Obligations.ResetMeetsTheInvariant : Prop := State.reset.Inv

/-- 10_state.md R24, R27, R28, R29, R31; 20_memory.md R41: every step, from every state that meets the invariant, leads
to a state that meets it. With no session the registers hold their reset values; with one, `KLEN` is legal, `RK` is the
schedule of the key it starts with, ECB keeps a zero chain, and only CFB and CTR set `PARTIAL`. -/
def Obligations.EveryStepKeepsTheInvariant : Prop :=
  ∀ s t : State, s.Inv → step s = .next t → t.Inv

/-- 10_state.md R27, R28: between an `INIT`, a `RELEASE` and a reset, nothing writes `CONFIGURED`, `MODE`, `KLEN` or
`RK`. -/
def Obligations.OnlyInitReleaseAndResetWriteTheKey : Prop :=
  ∀ s t : State, step s = .next t → s.input.head? ≠ some .reset →
    (∀ c i, s.input.head? = some (.command c) → decode c = .ok i →
      i ≠ .release ∧ ∀ mode key iv, i ≠ .init mode key iv) →
    t.session = { s.session with chain := t.session.chain, partialFlag := t.session.partialFlag }

/-- 10_state.md R24, R26; 70_reset_and_hazards.md R225: only an `INIT` that ends `OK` makes a session exist, and only a
`RELEASE` or a reset ends it. -/
def Obligations.OnlyInitOpensASession : Prop :=
  ∀ s t : State, step s = .next t →
    (s.session.configured = false → t.session.configured = true →
      ∃ c rest mode key iv, s.input = .command c :: rest ∧ decode c = .ok (.init mode key iv) ∧
        t.responses = s.responses ++ [⟨.ok, []⟩]) ∧
    (s.session.configured = true → t.session.configured = false →
      s.input.head? = some .reset ∨ ∃ c rest, s.input = .command c :: rest ∧ decode c = .ok .release)

/-- 60_exceptions.md R191: which statuses each command can return once it is decoded. -/
def Obligations.StatusesByCommand : Prop :=
  ∀ (i : Instr) (s t : State) (r : Response), exec i s = .next t → t.responses = s.responses ++ [r] →
    r.status ∈ match i with
      | .init _ _ _ => [Status.ok, .invalidKeyLength, .unsupportedMode, .missingIV, .invalidIVLength]
      | .encrypt _ => [.ok, .notInitialised, .invalidInputLength, .partialBlockContinuation]
      | .decrypt _ => [.ok, .notInitialised, .invalidInputLength, .partialBlockContinuation]
      | .getIv => [.ok, .notInitialised]
      | .getBlockSize => [.ok]
      | .getKeySize => [.ok, .notInitialised]
      | .getMode => [.ok, .notInitialised]
      | .release => [.ok]

/-! ## INIT and RELEASE -/

/-- 43_commands.md R160, R163, R164, R165; 20_memory.md R45: an `INIT` with a legal key length, one of the four mode
codes and, outside ECB, a 16-byte IV constructs the session from any state: all six registers. In ECB the IV is ignored
and the chain is `0^16`; in the other modes the chain's bytes are the IV's. -/
def Obligations.InitConstructsTheSession : Prop :=
  ∀ (s : State) (m : Mode) (mode : BitVec 3) (key : List Byte) (iv : Option (List Byte)) (chain : Block),
    (key.length = 16 ∨ key.length = 24 ∨ key.length = 32) → mode.toNat = m.code.toNat →
    (m = .ecb ∧ chain = Block.zero ∨ m ≠ .ecb ∧ iv = some chain.toBytes) →
    exec (.init mode key iv) s = .next
      { session := { configured := true, mode := m, klen := BitVec.ofNat 6 key.length,
                     rk := storeSchedule (keyExpansion key), chain := chain, partialFlag := false },
        input := s.input, responses := s.responses ++ [⟨.ok, []⟩] }

/-- 40_key_schedule.md R82, R87, R88, R93: the words an `OK` `INIT` stores, in any mode. The first `Nk` are the key, word
`i` of the rest is `w[i-Nk] XOR temp` up to `4*(Nr+1)`, and the others are zero. That such an `INIT` completes is
InitConstructsTheSession. -/
def Obligations.InitStoresTheKeySchedule : Prop :=
  ∀ (s t : State) (mode : BitVec 3) (key : List Byte) (iv : Option (List Byte)),
    exec (.init mode key iv) s = .next t → t.responses = s.responses ++ [⟨.ok, []⟩] →
      let nk := key.length / 4
      let rk := t.session.rk
      (∀ i (h : i < 60), i < nk →
        rk[i].toBytes = [key.getD (4 * i) 0, key.getD (4 * i + 1) 0, key.getD (4 * i + 2) 0, key.getD (4 * i + 3) 0]) ∧
      (∀ i (h : i < 60), nk ≤ i → i < 4 * (nk + 7) →
        let p := rk[i - 1]
        let temp : Word :=
          if i % nk = 0 then ⟨sbox p.a1 ^^^ rcon (i / nk), sbox p.a2, sbox p.a3, sbox p.a0⟩
          else if nk = 8 ∧ i % nk = 4 then ⟨sbox p.a0, sbox p.a1, sbox p.a2, sbox p.a3⟩
          else p
        rk[i] = rk[i - nk].xor temp) ∧
      (∀ i (h : i < 60), 4 * (nk + 7) ≤ i → rk[i] = ⟨0, 0, 0, 0⟩)

/-- 43_commands.md R161, R162, R164; 60_exceptions.md R195: the errors of `INIT`, the first that applies in the order
`InvalidKeyLength`, `UnsupportedMode`, `MissingIV` or `InvalidIVLength`; each changes no register. -/
def Obligations.InitErrorsInPriorityOrder : Prop :=
  ∀ (s : State) (mode : BitVec 3) (key : List Byte) (iv : Option (List Byte)),
    let ends (e : Status) : Prop :=
      exec (.init mode key iv) s = .next { s with responses := s.responses ++ [⟨e, []⟩] }
    let legal : Prop := key.length = 16 ∨ key.length = 24 ∨ key.length = 32
    (¬legal → ends .invalidKeyLength) ∧
    (legal → 4 ≤ mode.toNat → ends .unsupportedMode) ∧
    (legal → 1 ≤ mode.toNat → mode.toNat ≤ 3 → iv = none → ends .missingIV) ∧
    (legal → 1 ≤ mode.toNat → mode.toNat ≤ 3 → ∀ v, iv = some v → v.length ≠ 16 → ends .invalidIVLength)

/-- 43_commands.md R163: in ECB the IV is ignored, whether it is there and whatever its length and its bytes; `CHAIN` is
`0^16`. -/
def Obligations.EcbInitIgnoresTheIv : Prop :=
  ∀ (s : State) (key : List Byte) (iv : Option (List Byte)),
    exec (.init 0 key iv) s = exec (.init 0 key none) s ∧
    ((key.length = 16 ∨ key.length = 24 ∨ key.length = 32) →
      ∃ t, exec (.init 0 key iv) s = .next t ∧ t.responses = s.responses ++ [⟨.ok, []⟩] ∧
        t.session.chain.toBytes = List.replicate 16 0)

/-- 40_key_schedule.md R89: the expansion depends on the key bytes only: two `INIT`s with the same key that end `OK`,
from any states, in any modes and with any IVs, leave the same `RK`. -/
def Obligations.RoundKeysDependOnTheKeyAlone : Prop :=
  ∀ (s s' t t' : State) (key : List Byte) (mode mode' : BitVec 3) (iv iv' : Option (List Byte)),
    exec (.init mode key iv) s = .next t → exec (.init mode' key iv') s' = .next t' →
    t.responses = s.responses ++ [⟨.ok, []⟩] → t'.responses = s'.responses ++ [⟨.ok, []⟩] →
    t.session.rk = t'.session.rk

/-- 43_commands.md R165: an `INIT` that ends `OK` replaces the whole session, so what it leaves does not depend on what
was there; one that ends with another status changes nothing. -/
def Obligations.InitReplacesTheSessionOrKeepsIt : Prop :=
  ∀ (s s' : State) (mode : BitVec 3) (key : List Byte) (iv : Option (List Byte)),
    ∃ t t' r, exec (.init mode key iv) s = .next t ∧ exec (.init mode key iv) s' = .next t' ∧
      t.responses = s.responses ++ [r] ∧ t'.responses = s'.responses ++ [r] ∧
      (r.status = .ok → t.session = t'.session) ∧
      (r.status ≠ .ok → t.session = s.session ∧ t'.session = s'.session)

/-- 43_commands.md R172: `RELEASE` (opcode `1000`, no payload) ends `OK` from any state, with a session or without one,
and gives every session register its reset value. -/
def Obligations.ReleaseClearsTheSession : Prop :=
  decode ⟨0x00000008, []⟩ = .ok .release ∧ ∀ s : State, exec .release s = .next
    { session := { configured := false, mode := .ecb, klen := 0, rk := Vector.replicate 60 ⟨0, 0, 0, 0⟩,
                   chain := ⟨⟨0, 0, 0, 0⟩, ⟨0, 0, 0, 0⟩, ⟨0, 0, 0, 0⟩, ⟨0, 0, 0, 0⟩⟩, partialFlag := false },
      input := s.input, responses := s.responses ++ [⟨.ok, []⟩] }

/-! ## Queries -/

/-- 43_commands.md R168, R169, R170, R171: what the queries return. `GET_BLOCK_SIZE` needs no session; the other three
return `CHAIN`, `KLEN` and the mode code of a session and end `NotInitialised` without one; none writes a register. -/
def Obligations.QueriesReturnTheirRegister : Prop :=
  decode ⟨0x00000004, []⟩ = .ok .getIv ∧ decode ⟨0x00000005, []⟩ = .ok .getBlockSize ∧
  decode ⟨0x00000006, []⟩ = .ok .getKeySize ∧ decode ⟨0x00000007, []⟩ = .ok .getMode ∧
  ∀ s : State,
    let ends (i : Instr) (e : Status) (out : List Byte) : Prop :=
      exec i s = .next { s with responses := s.responses ++ [⟨e, out⟩] }
    ends .getBlockSize .ok [0x10] ∧
    (s.session.configured = true →
      ends .getIv .ok s.session.chain.toBytes ∧
      ends .getKeySize .ok [BitVec.ofNat 8 s.session.klen.toNat] ∧
      ends .getMode .ok [match s.session.mode with | .ecb => 0 | .cbc => 1 | .cfb => 2 | .ctr => 3]) ∧
    (s.session.configured = false →
      ends .getIv .notInitialised [] ∧ ends .getKeySize .notInitialised [] ∧ ends .getMode .notInitialised [])

/-- 43_commands.md R170 with 10_state.md R24: on a session that meets the invariant `GET_KEY_SIZE` returns 16, 24 or
32. -/
def Obligations.KeySizeIsLegal : Prop :=
  ∀ s : State, s.Inv → s.session.configured = true →
    ∃ b t, exec .getKeySize s = .next t ∧ t.responses = s.responses ++ [⟨.ok, [b]⟩] ∧ (b = 16 ∨ b = 24 ∨ b = 32)

/-- 10_state.md R33, 20_memory.md R54: the queries cannot read the round keys or `PARTIAL`: two cores that differ in
nothing else give the same answers. -/
def Obligations.QueriesCannotReadTheKey : Prop :=
  ∀ (s s' : State) (i : Instr), i ∈ [Instr.getIv, .getBlockSize, .getKeySize, .getMode] →
    s' = { s with session := { s.session with rk := s'.session.rk, partialFlag := s'.session.partialFlag } } →
    ∃ t t', exec i s = .next t ∧ exec i s' = .next t' ∧ t.responses = t'.responses

/-! ## ENCRYPT and DECRYPT -/

/-- 20_memory.md R42: every payload is its full blocks in order and then 0 to 15 bytes, in one way. -/
def Obligations.EveryPayloadIsItsBlocksAndATail : Prop :=
  ∀ data : List Byte,
    ∃ X T, data = joinBlocks X ++ T ∧ T.length < 16 ∧ T.length = data.length % 16 ∧
      ∀ X' T', data = joinBlocks X' ++ T' → T'.length < 16 → X' = X ∧ T' = T

/-- 42_mode_engines.md R131, R132, R143; 20_memory.md R51: in ECB each block of the payload is enciphered or deciphered
on its own and no register changes. -/
def Obligations.EcbTransformsEachBlock : Prop :=
  ∀ (s : State) (X : List Block), s.session.configured = true → s.session.mode = .ecb →
    exec (.encrypt (joinBlocks X)) s = .next
      { s with responses := s.responses ++ [⟨.ok, joinBlocks (X.map s.session.enc)⟩] } ∧
    exec (.decrypt (joinBlocks X)) s = .next
      { s with responses := s.responses ++ [⟨.ok, joinBlocks (X.map s.session.dec)⟩] }

/-- 42_mode_engines.md R133, R143: CBC encryption. Each block is XORed with the ciphertext block before it, the first
with `CHAIN`, and enciphered; `CHAIN` becomes the last ciphertext block. -/
def Obligations.CbcEncryptChainsCiphertext : Prop :=
  ∀ (s : State) (X : List Block), s.session.configured = true → s.session.mode = .cbc →
    ∃ Y : List Block, Y.length = X.length ∧
      (∀ (k : Nat) (x y : Block), X[k]? = some x → Y[k]? = some y → y = s.session.enc (x.xor ((s.session.chain :: Y).getD k Block.zero))) ∧
      exec (.encrypt (joinBlocks X)) s = .next
        { s with session := { s.session with chain := Y.getLastD s.session.chain },
                 responses := s.responses ++ [⟨.ok, joinBlocks Y⟩] }

/-- 42_mode_engines.md R134, R143: CBC decryption. Each block is deciphered and XORed with the ciphertext block before
it, the first with `CHAIN`; `CHAIN` becomes the last ciphertext block. -/
def Obligations.CbcDecryptChainsCiphertext : Prop :=
  ∀ (s : State) (X : List Block), s.session.configured = true → s.session.mode = .cbc →
    ∃ Y : List Block, Y.length = X.length ∧
      (∀ (k : Nat) (x y : Block), X[k]? = some x → Y[k]? = some y → y = (s.session.dec x).xor ((s.session.chain :: X).getD k Block.zero)) ∧
      exec (.decrypt (joinBlocks X)) s = .next
        { s with session := { s.session with chain := X.getLastD s.session.chain },
                 responses := s.responses ++ [⟨.ok, joinBlocks Y⟩] }

/-- 42_mode_engines.md R135, R137, R144: CFB encryption of full blocks `X` and a tail `T` of 0 to 15 bytes. The keystream
is `Enc` of the ciphertext block before, the first of `CHAIN`. A tail uses the first `L` bytes of the keystream block
`K`, leaves `CHAIN` at its ciphertext followed by `K[L..16)`, and sets `PARTIAL`. -/
def Obligations.CfbEncryptFeedsBackCiphertext : Prop :=
  ∀ (s : State) (X : List Block) (T : List Byte), s.session.configured = true → s.session.mode = .cfb →
    s.session.partialFlag = false → T.length < 16 →
    ∃ (Y : List Block) (chain : Block), Y.length = X.length ∧
      (∀ (k : Nat) (x y : Block), X[k]? = some x → Y[k]? = some y → y = (s.session.enc ((s.session.chain :: Y).getD k Block.zero)).xor x) ∧
      let K := (s.session.enc (Y.getLastD s.session.chain)).toBytes
      let yT := xorBytes (K.take T.length) T
      (T = [] → chain = Y.getLastD s.session.chain) ∧ (T ≠ [] → chain.toBytes = yT ++ K.drop T.length) ∧
      exec (.encrypt (joinBlocks X ++ T)) s = .next
        { s with session := { s.session with chain := chain, partialFlag := !T.isEmpty },
                 responses := s.responses ++ [⟨.ok, joinBlocks Y ++ yT⟩] }

/-- 42_mode_engines.md R136, R137, R142, R144: CFB decryption. The keystream is `Enc`, never `Dec`, of the ciphertext
block before; what is fed back is the input, and after a tail the input's `L` bytes followed by `K[L..16)`. -/
def Obligations.CfbDecryptFeedsBackCiphertext : Prop :=
  ∀ (s : State) (X : List Block) (T : List Byte), s.session.configured = true → s.session.mode = .cfb →
    s.session.partialFlag = false → T.length < 16 →
    ∃ (Y : List Block) (chain : Block), Y.length = X.length ∧
      (∀ (k : Nat) (x y : Block), X[k]? = some x → Y[k]? = some y → y = (s.session.enc ((s.session.chain :: X).getD k Block.zero)).xor x) ∧
      let K := (s.session.enc (X.getLastD s.session.chain)).toBytes
      let yT := xorBytes (K.take T.length) T
      (T = [] → chain = X.getLastD s.session.chain) ∧ (T ≠ [] → chain.toBytes = T ++ K.drop T.length) ∧
      exec (.decrypt (joinBlocks X ++ T)) s = .next
        { s with session := { s.session with chain := chain, partialFlag := !T.isEmpty },
                 responses := s.responses ++ [⟨.ok, joinBlocks Y ++ yT⟩] }

/-- 42_mode_engines.md R138, R139, R140, R141, R144: CTR, the same in both directions. Chunk `k` is XORed with `Enc` of
the counter plus `k` modulo `2^128`, a tail with the first bytes of it; the counter advances by one per chunk, the tail
included, and a tail sets `PARTIAL`. -/
def Obligations.CtrCountsOneBlockPerChunk : Prop :=
  ∀ (s : State) (X : List Block) (T : List Byte), s.session.configured = true → s.session.mode = .ctr →
    s.session.partialFlag = false → T.length < 16 →
    let counter (k : Nat) : Block := Block.ofCounter ((s.session.chain.toCounter + k) % 2 ^ 128)
    let K := (s.session.enc (counter X.length)).toBytes
    ∃ Y : List Block, Y.length = X.length ∧
      (∀ (k : Nat) (x y : Block), X[k]? = some x → Y[k]? = some y → y = (s.session.enc (counter k)).xor x) ∧
      ∀ i ∈ [Instr.encrypt (joinBlocks X ++ T), .decrypt (joinBlocks X ++ T)],
        exec i s = .next
          { s with session := { s.session with chain := counter (X.length + if T = [] then 0 else 1),
                                               partialFlag := !T.isEmpty },
                   responses := s.responses ++ [⟨.ok, joinBlocks Y ++ xorBytes (K.take T.length) T⟩] }

/-- 42_mode_engines.md R145, 60_exceptions.md R195: in ECB and CBC a length that is not a multiple of 16 ends a data
command with `InvalidInputLength` and changes no register. -/
def Obligations.MisalignedDataIsRejected : Prop :=
  ∀ (s : State) (data : List Byte), s.session.configured = true →
    (s.session.mode = .ecb ∨ s.session.mode = .cbc) → data.length % 16 ≠ 0 →
    ∀ i ∈ [Instr.encrypt data, .decrypt data],
      exec i s = .next { s with responses := s.responses ++ [⟨.invalidInputLength, []⟩] }

/-- 42_mode_engines.md R146, 70_reset_and_hazards.md R229: in CFB and CTR, once `PARTIAL` is 1, a data command with at
least one byte ends `PartialBlockContinuation` and changes no register. -/
def Obligations.DataAfterAPartialChunkIsRejected : Prop :=
  ∀ (s : State) (data : List Byte), s.session.configured = true →
    (s.session.mode = .cfb ∨ s.session.mode = .ctr) → s.session.partialFlag = true → data ≠ [] →
    ∀ i ∈ [Instr.encrypt data, .decrypt data],
      exec i s = .next { s with responses := s.responses ++ [⟨.partialBlockContinuation, []⟩] }

/-- 42_mode_engines.md R147, 20_memory.md R48: an empty data command on a configured core ends `OK` with an empty output
and writes no register, in every mode and whatever `PARTIAL` holds. -/
def Obligations.EmptyDataChangesNothing : Prop :=
  ∀ s : State, s.session.configured = true → ∀ i ∈ [Instr.encrypt [], .decrypt []],
    exec i s = .next { s with responses := s.responses ++ [⟨.ok, []⟩] }

/-- 60_exceptions.md R196, R195 item 3: without a session a data command and a session query end `NotInitialised`,
whatever their length, and change no register. -/
def Obligations.NotInitialisedWithoutASession : Prop :=
  ∀ (s : State) (data : List Byte), s.session.configured = false →
    ∀ i ∈ [Instr.encrypt data, .decrypt data, .getIv, .getKeySize, .getMode],
      exec i s = .next { s with responses := s.responses ++ [⟨.notInitialised, []⟩] }

/-- 10_state.md R31: `PARTIAL` is set by an `OK` data command in CFB or CTR whose length is not a multiple of 16, and by
nothing else; a step clears it only if its event is a reset, an `INIT` or a `RELEASE`; in ECB and CBC a data command
leaves it. -/
def Obligations.PartialIsSetByAShortChunkOnly : Prop :=
  (∀ (s : State) (data : List Byte), s.session.configured = true → s.session.partialFlag = false →
    (s.session.mode = .cfb ∨ s.session.mode = .ctr) → ∀ i ∈ [Instr.encrypt data, .decrypt data],
      ∃ t out, exec i s = .next t ∧ t.responses = s.responses ++ [⟨.ok, out⟩] ∧
        (t.session.partialFlag = true ↔ data.length % 16 ≠ 0)) ∧
  (∀ s t : State, step s = .next t → s.session.partialFlag = false → t.session.partialFlag = true →
    (s.session.mode = .cfb ∨ s.session.mode = .ctr) ∧
      ∃ c rest data, s.input = .command c :: rest ∧ data.length % 16 ≠ 0 ∧
        (decode c = .ok (.encrypt data) ∨ decode c = .ok (.decrypt data))) ∧
  (∀ s t : State, step s = .next t → s.session.partialFlag = true → t.session.partialFlag = false →
    s.input.head? = some .reset ∨ ∃ c rest, s.input = .command c :: rest ∧
      (decode c = .ok .release ∨ ∃ mode key iv, decode c = .ok (.init mode key iv)))

/-- 30_encoding.md R68: the output payload lengths, by command on `OK`, and 0 on any other status. -/
def Obligations.OutputPayloadLengths : Prop :=
  ∀ (i : Instr) (s t : State) (r : Response), exec i s = .next t → t.responses = s.responses ++ [r] →
    r.out.length = if r.status = .ok then
      match i with
      | .init _ _ _ => 0
      | .encrypt data => data.length
      | .decrypt data => data.length
      | .getIv => 16
      | .getBlockSize => 1
      | .getKeySize => 1
      | .getMode => 1
      | .release => 0
    else 0

/-- 42_mode_engines.md R150: `DECRYPT` on a session newly initialised with the same key, mode and IV returns the
plaintext `ENCRYPT` was given, and the two sessions end equal in every register, `CHAIN` and `PARTIAL` among them. The
two cores may have held anything before their `INIT`. -/
def Obligations.DecryptUndoesEncryptOnAFreshSession : Prop :=
  ∀ (s s' : State) (mode : BitVec 3) (key data : List Byte) (iv : Option (List Byte)),
    (key.length = 16 ∨ key.length = 24 ∨ key.length = 32) →
    (mode = 0 ∨ (1 ≤ mode.toNat ∧ mode.toNat ≤ 3 ∧ ∃ v, iv = some v ∧ v.length = 16)) →
    (mode.toNat ≤ 1 → data.length % 16 = 0) →
    ∃ (cipherText : List Byte) (s1 s2 t1 t2 : State),
      exec (.init mode key iv) s = .next s1 ∧ exec (.encrypt data) s1 = .next s2 ∧
      exec (.init mode key iv) s' = .next t1 ∧ exec (.decrypt cipherText) t1 = .next t2 ∧
      s2.responses = s.responses ++ [⟨.ok, []⟩, ⟨.ok, cipherText⟩] ∧
      t2.responses = s'.responses ++ [⟨.ok, []⟩, ⟨.ok, data⟩] ∧ s2.session = t2.session

/-- 42_mode_engines.md R151, 20_memory.md R52: splitting the data at a block boundary over two commands, in either
direction, gives the same bytes and leaves the same registers as one command. -/
def Obligations.SplittingDataAtABlockBoundaryChangesNothing : Prop :=
  ∀ (s : State) (a b : List Byte), s.session.configured = true → a.length % 16 = 0 →
    s.session.accepts (a.length + b.length) →
    ∀ mk ∈ [Instr.encrypt, Instr.decrypt],
      ∃ (outA outB : List Byte) (t1 t2 u : State),
        exec (mk a) s = .next t1 ∧ exec (mk b) t1 = .next t2 ∧ exec (mk (a ++ b)) s = .next u ∧
        t2.responses = s.responses ++ [⟨.ok, outA⟩, ⟨.ok, outB⟩] ∧
        u.responses = s.responses ++ [⟨.ok, outA ++ outB⟩] ∧ t2.session = u.session

/-- 42_mode_engines.md R153 with log entry 6, the model's choice: in CTR, up to `2^128` equal plaintext blocks of one
command give pairwise distinct ciphertext blocks. A command word's `LEN` reaches fewer (R64); that `exec` runs on longer
data by the same rules is log entry 6 (DESIGN CHOICE). Equal blocks among others, over the commands of a session, are
EqualBlocksOfACtrSessionGiveDistinctBlocks. -/
def Obligations.CtrRepeatedBlocksGiveDistinctBlocks : Prop :=
  ∀ (s : State) (b : Block) (n : Nat), s.session.configured = true → s.session.mode = .ctr →
    s.session.partialFlag = false → n ≤ 2 ^ 128 →
    ∃ (Y : List Block) (t : State), Y.length = n ∧ Y.Nodup ∧
      exec (.encrypt (joinBlocks (List.replicate n b))) s = .next t ∧
      t.responses = s.responses ++ [⟨.ok, joinBlocks Y⟩]

/-! ## The datapath -/

/-- 41_round_transform.md R123 with log entry 7, the model's choice: the ciphers undo each other, for every block, every
round-key file and every number of rounds. R123 speaks of 10, 12 and 14 rounds; past 14 rounds the round keys are the free
values of log entry 7 (DESIGN CHOICE), whatever they are. What the ciphers compute is CiphersRunTheirRounds and
KnownAnswersOfTheThreeKeySizes. -/
def Obligations.CiphersUndoEachOther : Prop :=
  ∀ (rk : Vector Word 60) (nr : Nat) (x : Block),
    invCipher rk nr (cipher rk nr x) = x ∧ cipher rk nr (invCipher rk nr x) = x

/-- 41_round_transform.md R101, R103: the XOR of repeated `xtime` is the product of the polynomials reduced modulo
`x^8 + x^4 + x^3 + x + 1`. -/
def Obligations.GfProductIsThePolynomialProduct : Prop :=
  ∀ a b : Byte, gfMul a b = polyMod (polyMul a b)

/-- 41_round_transform.md R101, R102: multiplication is commutative, associative and distributes over XOR, `01` is its
identity, `00` annihilates, and `02` is `xtime`. -/
def Obligations.GfProductLaws : Prop :=
  ∀ a b c : Byte, gfMul a b = gfMul b a ∧ gfMul (gfMul a b) c = gfMul a (gfMul b c) ∧
    gfMul a (b ^^^ c) = gfMul a b ^^^ gfMul a c ∧ gfMul 0x01 a = a ∧ gfMul 0x00 a = 0x00 ∧ gfMul 0x02 a = xtime a

/-- 41_round_transform.md R104, R107: every non-zero byte has exactly one multiplicative inverse, and the S-box is the
affine map of it, with `00` for the inverse of `00`. -/
def Obligations.SboxIsTheAffineMapOfTheInverse : Prop :=
  sbox 0x00 = affine 0x00 ∧
  ∀ b : Byte, b ≠ 0x00 → ∃ y, gfMul b y = 0x01 ∧ (∀ z, gfMul b z = 0x01 → z = y) ∧ sbox b = affine y

/-- 41_round_transform.md R112, R113, R115, R116: MixColumns multiplies each column by `{03}x^3 + {01}x^2 + {01}x + {02}`
modulo `x^4 + 1`, InvMixColumns by `{0b}x^3 + {0d}x^2 + {09}x + {0e}`, and each undoes the other. -/
def Obligations.MixColumnsIsAPolynomialProduct : Prop :=
  (∀ w : Word, mixColumn w = polyColumnMul ⟨0x02, 0x01, 0x01, 0x03⟩ w ∧
    invMixColumn w = polyColumnMul ⟨0x0e, 0x09, 0x0d, 0x0b⟩ w ∧
    invMixColumn (mixColumn w) = w ∧ mixColumn (invMixColumn w) = w) ∧
  ∀ (s : Block) (c : Fin 4), (mixColumns s).col c = mixColumn (s.col c) ∧
    (invMixColumns s).col c = invMixColumn (s.col c)

/-- 41_round_transform.md R110, R111, R118, R119, R122: where each byte goes. ShiftRows rotates row `r` left by `r` and
InvShiftRows right; AddRoundKey XORs byte `r` of `RK[4*round + c]` into row `r` of column `c` and is its own inverse;
InvSubBytes and InvShiftRows commute. -/
def Obligations.RoundOperationsByByte : Prop :=
  ∀ (rk : Vector Word 60) (round : Nat) (s : Block) (r c : Fin 4) (hr : round < 15),
    (shiftRows s).get r c = s.get r (c + r) ∧ (invShiftRows s).get r c = s.get r (c - r) ∧
    invShiftRows (shiftRows s) = s ∧ shiftRows (invShiftRows s) = s ∧
    (addRoundKey rk round s).get r c = s.get r c ^^^ (rk[4 * round + c.val]'(by have := c.isLt; omega)).byte r ∧
    addRoundKey rk round (addRoundKey rk round s) = s ∧
    invSubBytes (invShiftRows s) = invShiftRows (invSubBytes s)

/-- 20_memory.md R43, R45; 10_state.md R30: byte `r + 4*c` of a block is `s[r][c]`, the 16 bytes give the block back, and
the counter is the sum of `CHAIN[i] * 2^(8*(15-i))`. -/
def Obligations.BlockBytesAreColumnMajorBigEndian : Prop :=
  ∀ s : Block, s.toBytes.length = 16 ∧ (∀ r c : Fin 4, s.toBytes[r.val + 4 * c.val]? = some (s.get r c)) ∧
    Block.ofBytes? s.toBytes = some s ∧ (∀ l, l.length ≠ 16 → Block.ofBytes? l = none) ∧
    s.toCounter = ((List.range 16).map fun i => (s.toBytes.getD i 0).toNat * 2 ^ (8 * (15 - i))).sum

/-- 42_mode_engines.md R141: `Inc128` adds one to the big-endian 128-bit integer modulo `2^128`, over its full width. -/
def Obligations.Inc128AddsOneModulo128Bits : Prop :=
  (∀ s : Block, (inc128 s).toCounter = (s.toCounter + 1) % 2 ^ 128) ∧
  (∀ n : Nat, (Block.ofCounter n).toCounter = n % 2 ^ 128) ∧
  (∀ s : Block, s.toBytes = List.replicate 16 0xff → (inc128 s).toBytes = List.replicate 16 0x00)

/-! ## Several cores, several hosts -/

/-- 10_state.md R21, 60_exceptions.md R204, with log entries 3, 8 and 9, the model's reading: a step of one core is that
core's own step, always completes, and leaves every other core exactly as it was. That a platform steps one core at a time
is log entry 9, that a step always completes is log entry 8, and for an idle core log entry 3 (all DEDUCED). -/
def Obligations.CoresShareNoState : Prop :=
  ∀ (n : Nat) (p : Platform n) (i : Fin n), ∃ q, stepCore p i = .next q ∧
    step (p.cores.get i) = .next (q.cores.get i) ∧ ∀ j : Fin n, j ≠ i → q.cores.get j = p.cores.get j

/-- 20_memory.md R56 with log entry 10, the model's reading: the admitted orders of what several hosts issue to one core
are exactly those that keep each host's own. An order is admitted if and only if every position of it can be given to one
host so that each host's positions, in order, are what that host issues. So an admitted order holds every event once and
each host's events in that host's order. -/
def Obligations.InterleavingsKeepEachHostsOrder : Prop :=
  ∀ (hosts : List (List Event)) (order : List Event),
    (Interleaving hosts order ↔
      ∃ owners : List Nat, owners.length = order.length ∧ (∀ k ∈ owners, k < hosts.length) ∧
        ∀ (k : Nat) (q : List Event), hosts[k]? = some q →
          ((owners.zip order).filter fun p => p.1 == k).map Prod.snd = q) ∧
    (Interleaving hosts order → order.Perm hosts.flatten ∧ ∀ q ∈ hosts, q.Sublist order)

/-! ## What the ciphers compute -/

/-- 41_round_transform.md R105, R106, R109; 40_key_schedule.md R83: SubBytes and InvSubBytes substitute each byte by the
tables, which undo each other; an all-zero state becomes all `63`, and the example of R105 holds; `Rcon[1] = 01`, each
later constant is `xtime` of the one before, and the expansion reads none outside 1 to 10. -/
def Obligations.TablesSubstituteEachByte : Prop :=
  (∀ (s : Block) (r c : Fin 4),
    (subBytes s).get r c = sbox (s.get r c) ∧ (invSubBytes s).get r c = invSbox (s.get r c)) ∧
  (∀ b : Byte, invSbox (sbox b) = b ∧ sbox (invSbox b) = b) ∧
  sbox 0x00 = 0x63 ∧ invSbox 0x63 = 0x00 ∧ invSbox 0xed = 0x53 ∧
  (subBytes Block.zero).toBytes = List.replicate 16 0x63 ∧
  (∀ s : Block, s.toBytes = bytesOfHex 16 0x000102030405060708090a0b0c0d0e0f →
    (subBytes s).toBytes = bytesOfHex 16 0x637c777bf26b6fc53001672bfed7ab76) ∧
  rcon 1 = 0x01 ∧ (∀ j, 1 ≤ j → j < 10 → rcon (j + 1) = xtime (rcon j)) ∧
  [1, 2, 3, 4, 5, 6, 7, 8, 9, 10].map rcon = [0x01, 0x02, 0x04, 0x08, 0x10, 0x20, 0x40, 0x80, 0x1b, 0x36] ∧
  (∀ nk i, nk = 4 ∨ nk = 6 ∨ nk = 8 → nk ≤ i → i < scheduleLength nk → i % nk = 0 → 1 ≤ i / nk ∧ i / nk ≤ 10)

/-- 41_round_transform.md R120, R121; 10_state.md R25; 42_mode_engines.md R130: the rounds of the ciphers, step by step.
`st round` is the state after round `round`: forward, AddRoundKey 0, the `Nr - 1` middle rounds in rising order and the
final round without MixColumns; inverse, the round keys from the end. A session enciphers and deciphers under its `RK`
with `Nk = KLEN / 4` and `Nr = Nk + 6`: 10, 12 or 14 rounds as its `KLEN` is 16, 24 or 32. -/
def Obligations.CiphersRunTheirRounds : Prop :=
  (∀ (rk : Vector Word 60) (nr : Nat) (x : Block), nr = 10 ∨ nr = 12 ∨ nr = 14 →
    (∃ st : Nat → Block, st 0 = addRoundKey rk 0 x ∧
      (∀ round, 1 ≤ round → round < nr →
        st round = addRoundKey rk round (mixColumns (shiftRows (subBytes (st (round - 1)))))) ∧
      cipher rk nr x = addRoundKey rk nr (shiftRows (subBytes (st (nr - 1))))) ∧
    (∃ st : Nat → Block, st nr = addRoundKey rk nr x ∧
      (∀ round, 1 ≤ round → round < nr →
        st round = invMixColumns (addRoundKey rk round (invSubBytes (invShiftRows (st (round + 1)))))) ∧
      invCipher rk nr x = addRoundKey rk 0 (invSubBytes (invShiftRows (st 1))))) ∧
  ∀ (r : Session) (nk nr : Nat) (x : Block),
    (r.klen = 16 ∧ nk = 4 ∧ nr = 10 ∨ r.klen = 24 ∧ nk = 6 ∧ nr = 12 ∨ r.klen = 32 ∧ nk = 8 ∧ nr = 14) →
    nkOfKlen r.klen = nk ∧ nk = r.klen.toNat / 4 ∧ roundsOf nk = nr ∧ nr = nk + 6 ∧ r.enc x = cipher r.rk nr x ∧ r.dec x = invCipher r.rk nr x

/-- 95_test_vectors.md S1, 3.2 and 3.3, the examples of 41_round_transform.md R120 and R121 among them: `INIT ECB` with the
16-, 24- and 32-byte key `000102...`, on any core, then `ENCRYPT` of `00112233445566778899aabbccddeeff`, or `DECRYPT` of
its ciphertext. -/
def Obligations.KnownAnswersOfTheThreeKeySizes : Prop :=
  let plain := bytesOfHex 16 0x00112233445566778899aabbccddeeff
  ∀ (s : State) (key cipherText : List Byte),
    (key, cipherText) ∈
      [(bytesOfHex 16 0x000102030405060708090a0b0c0d0e0f, bytesOfHex 16 0x69c4e0d86a7b0430d8cdb78070b4c55a),
       (bytesOfHex 24 0x000102030405060708090a0b0c0d0e0f1011121314151617,
        bytesOfHex 16 0xdda97ca4864cdfe06eaf70a0ec0d7191),
       (bytesOfHex 32 0x000102030405060708090a0b0c0d0e0f101112131415161718191a1b1c1d1e1f,
        bytesOfHex 16 0x8ea2b7ca516745bfeafc49904b496089)] →
    ∃ s1 t u, exec (.init 0 key none) s = .next s1 ∧
      exec (.encrypt plain) s1 = .next t ∧ t.responses = s.responses ++ [⟨.ok, []⟩, ⟨.ok, cipherText⟩] ∧
      exec (.decrypt cipherText) s1 = .next u ∧ u.responses = s.responses ++ [⟨.ok, []⟩, ⟨.ok, plain⟩]

/-- 95_test_vectors.md section 5, the vectors M1 (its first block), M2 and M6 (two blocks), M7 and M11, M12 and M14: under
the key `2b7e...`, on any core, `ENCRYPT` of the plaintext and, on a fresh session, `DECRYPT` of the ciphertext, with what
each leaves in `CHAIN` and `PARTIAL`. -/
def Obligations.KnownAnswersOfTheFourModes : Prop :=
  let key := bytesOfHex 16 0x2b7e151628aed2a6abf7158809cf4f3c
  let iv := bytesOfHex 16 0x000102030405060708090a0b0c0d0e0f
  let counter := bytesOfHex 16 0xf0f1f2f3f4f5f6f7f8f9fafbfcfdfeff
  let p20 := bytesOfHex 20 0x6bc1bee22e409f96e93d7e117393172aae2d8a57
  ∀ (s : State) (mode : BitVec 3) (iv? : Option (List Byte)) (plain cipherText chain : List Byte) (part : Bool),
    (mode, iv?, plain, cipherText, chain, part) ∈
      [(0, none, bytesOfHex 16 0x6bc1bee22e409f96e93d7e117393172a, bytesOfHex 16 0x3ad77bb40d7a3660a89ecaf32466ef97,
        bytesOfHex 16 0x0, false),
       (1, some iv, bytesOfHex 32 0x6bc1bee22e409f96e93d7e117393172aae2d8a571e03ac9c9eb76fac45af8e51,
        bytesOfHex 32 0x7649abac8119b246cee98e9b12e9197d5086cb9b507219ee95db113a917678b2,
        bytesOfHex 16 0x5086cb9b507219ee95db113a917678b2, false),
       (2, some iv, p20, bytesOfHex 20 0x3b3fd92eb72dad20333449f8e83cfb4ac8a64537,
        bytesOfHex 16 0xc8a64537beb005a35354a201dab36bda, true),
       (3, some counter, p20, bytesOfHex 20 0x874d6191b620e3261bef6864990db6ce9806f66b,
        bytesOfHex 16 0xf0f1f2f3f4f5f6f7f8f9fafbfcfdff01, true)] →
    ∃ s1 t u, exec (.init mode key iv?) s = .next s1 ∧
      exec (.encrypt plain) s1 = .next t ∧ t.responses = s.responses ++ [⟨.ok, []⟩, ⟨.ok, cipherText⟩] ∧
      t.session.chain.toBytes = chain ∧ t.session.partialFlag = part ∧
      exec (.decrypt cipherText) s1 = .next u ∧ u.responses = s.responses ++ [⟨.ok, []⟩, ⟨.ok, plain⟩] ∧
      u.session.chain.toBytes = chain ∧ u.session.partialFlag = part

/-- 42_mode_engines.md R153, 30_encoding.md R64: in CTR, over the `ENCRYPT` commands of a session (whole blocks each, as
many as `LEN` can count, and at most `2^128` in all), any two positions with equal plaintext blocks have distinct
ciphertext blocks, whatever the other blocks are. -/
def Obligations.EqualBlocksOfACtrSessionGiveDistinctBlocks : Prop :=
  ∀ (s : State) (payloads : List (List Block)), s.session.configured = true → s.session.mode = .ctr →
    s.session.partialFlag = false →
    s.input = payloads.map (fun X => .command (encode (.encrypt (joinBlocks X)))) →
    (∀ X ∈ payloads, 16 * X.length < 2 ^ 24) → payloads.flatten.length ≤ 2 ^ 128 →
    ∃ (outs : List (List Block)) (t : State), run payloads.length s = .next t ∧
      t.responses = s.responses ++ outs.map (fun Y => ⟨.ok, joinBlocks Y⟩) ∧
      outs.map List.length = payloads.map List.length ∧
      ∀ (i j : Nat) (x : Block), i ≠ j → payloads.flatten[i]? = some x → payloads.flatten[j]? = some x →
        outs.flatten[i]? ≠ outs.flatten[j]?
end

