-- ==== Sys2Proof/Laws/Bytes.lean ====
section
/-! SUPPORT. Laws of bytes, words and blocks: access, byte order, exclusive-or, and the split of a payload. -/

namespace Sys2Proof

@[simp] theorem Word.byte_ofFn (f : Fin 4 → Byte) (r : Fin 4) : (Word.ofFn f).byte r = f r := by
  match r with
  | 0 => rfl
  | 1 => rfl
  | 2 => rfl
  | 3 => rfl

@[simp] theorem Word.ofFn_byte (w : Word) : Word.ofFn w.byte = w := rfl

@[simp] theorem Block.col_ofFn (f : Fin 4 → Fin 4 → Byte) (c : Fin 4) :
    (Block.ofFn f).col c = Word.ofFn (f · c) := by
  match c with
  | 0 => rfl
  | 1 => rfl
  | 2 => rfl
  | 3 => rfl

@[simp] theorem Block.get_ofFn (f : Fin 4 → Fin 4 → Byte) (r c : Fin 4) : (Block.ofFn f).get r c = f r c := by
  simp [Block.get]

@[simp] theorem Block.ofFn_get (s : Block) : Block.ofFn s.get = s := rfl

/-- Two blocks with the same sixteen bytes are equal. -/
theorem Block.ext_get {a b : Block} (h : ∀ r c, a.get r c = b.get r c) : a = b := by
  rw [← a.ofFn_get, ← b.ofFn_get, funext fun r => funext (h r)]

@[simp] theorem Block.xor_get (a b : Block) (r c : Fin 4) : (a.xor b).get r c = a.get r c ^^^ b.get r c := by
  simp [Block.xor]

theorem Block.xor_comm (a b : Block) : a.xor b = b.xor a :=
  Block.ext_get fun r c => by simp [BitVec.xor_comm]

/-- XOR with the same block twice gives the block back. -/
@[simp] theorem Block.xor_xor_cancel (a b : Block) : (a.xor b).xor b = a :=
  Block.ext_get fun r c => by simp

@[simp] theorem Block.xor_cancel_left (a b : Block) : a.xor (a.xor b) = b := by
  rw [Block.xor_comm a, Block.xor_comm a, Block.xor_xor_cancel]

@[simp] theorem Block.toBytes_length (s : Block) : s.toBytes.length = 16 := rfl

@[simp] theorem Block.ofBytes?_toBytes (s : Block) : Block.ofBytes? s.toBytes = some s := rfl

/-- Only a block's own 16 bytes are read as that block. -/
theorem Block.toBytes_of_ofBytes? {l : List Byte} {s : Block} (h : Block.ofBytes? l = some s) : s.toBytes = l := by
  unfold Block.ofBytes? at h
  split at h
  · cases h; rfl
  · cases h

theorem Block.toBytes_injective {a b : Block} (h : a.toBytes = b.toBytes) : a = b :=
  Option.some.inj (by rw [← Block.ofBytes?_toBytes a, h, Block.ofBytes?_toBytes b])

/-- Sixteen bytes are the bytes of some block. -/
theorem Block.exists_toBytes {l : List Byte} (h : l.length = 16) : ∃ s : Block, s.toBytes = l := by
  match l, h with
  | [b0, b1, b2, b3, b4, b5, b6, b7, b8, b9, b10, b11, b12, b13, b14, b15], _ =>
    exact ⟨⟨⟨b0, b1, b2, b3⟩, ⟨b4, b5, b6, b7⟩, ⟨b8, b9, b10, b11⟩, ⟨b12, b13, b14, b15⟩⟩, rfl⟩

@[simp] theorem xorBytes_length (a b : List Byte) : (xorBytes a b).length = min a.length b.length := by
  simp [xorBytes]

@[simp] theorem xorBytes_nil_right (a : List Byte) : xorBytes a [] = [] := by simp [xorBytes]

/-- Keystream bytes past the data are not used (R137, R140). -/
theorem xorBytes_take (k t : List Byte) : xorBytes (k.take t.length) t = xorBytes k t := by
  induction k generalizing t with
  | nil => simp [xorBytes]
  | cons a k ih =>
    cases t with
    | nil => rfl
    | cons b t => simpa [xorBytes] using ih t

/-- XOR with the same keystream twice gives the bytes back, as far as the keystream reaches. -/
theorem xorBytes_cancel (k : List Byte) : ∀ x : List Byte, x.length ≤ k.length → xorBytes k (xorBytes k x) = x := by
  induction k with
  | nil => intro x h; simp at h; simp [h]
  | cons a k ih =>
    intro x h
    cases x with
    | nil => simp
    | cons b x =>
      have := ih x (by simpa using h)
      simp only [xorBytes, List.zipWith_cons_cons] at this ⊢
      rw [this, ← BitVec.xor_assoc, BitVec.xor_self, BitVec.zero_xor]

end Sys2Proof

namespace Sys2Proof.Machine

@[simp] theorem joinBlocks_nil : joinBlocks [] = [] := rfl

@[simp] theorem joinBlocks_cons (b : Block) (bs : List Block) : joinBlocks (b :: bs) = b.toBytes ++ joinBlocks bs := rfl

@[simp] theorem joinBlocks_append (a b : List Block) : joinBlocks (a ++ b) = joinBlocks a ++ joinBlocks b := by
  simp [joinBlocks]

@[simp] theorem joinBlocks_length (bs : List Block) : (joinBlocks bs).length = 16 * bs.length := by
  induction bs with
  | nil => rfl
  | cons b bs ih => simp [ih]; omega

/-- The split of a block's bytes followed by more. -/
@[simp] theorem splitBlocks_toBytes_append (b : Block) (l : List Byte) :
    splitBlocks (b.toBytes ++ l) = (b :: (splitBlocks l).1, (splitBlocks l).2) := rfl

/-- Fewer than 16 bytes hold no full block. -/
theorem splitBlocks_short {l : List Byte} (h : l.length < 16) : splitBlocks l = ([], l) := by
  unfold splitBlocks
  split
  · simp at h; omega
  · rfl

/-- The split finds the blocks and the tail a payload was made of. -/
@[simp] theorem splitBlocks_joinBlocks_append (bs : List Block) {t : List Byte} (h : t.length < 16) :
    splitBlocks (joinBlocks bs ++ t) = (bs, t) := by
  induction bs with
  | nil => simpa using splitBlocks_short h
  | cons b bs ih => simp [List.append_assoc, ih]

@[simp] theorem splitBlocks_joinBlocks (bs : List Block) : splitBlocks (joinBlocks bs) = (bs, []) := by
  simpa using splitBlocks_joinBlocks_append bs (t := []) (by simp)

/-- Every payload is its blocks and a tail shorter than a block. -/
theorem exists_joinBlocks_append (n : Nat) :
    ∀ l : List Byte, l.length / 16 = n → ∃ bs t, l = joinBlocks bs ++ t ∧ t.length < 16 ∧ bs.length = n := by
  induction n with
  | zero => exact fun l h => ⟨[], l, rfl, by omega, rfl⟩
  | succ n ih =>
    intro l h
    obtain ⟨b, hb⟩ := Block.exists_toBytes (l := l.take 16) (by simp; omega)
    obtain ⟨bs, t, hl, ht, hn⟩ := ih (l.drop 16) (by simp; omega)
    exact ⟨b :: bs, t, by simp [hb, List.append_assoc, ← hl], ht, by simp [hn]⟩

/-- The split of a payload says what it is made of. -/
theorem joinBlocks_splitBlocks (l : List Byte) :
    joinBlocks (splitBlocks l).1 ++ (splitBlocks l).2 = l ∧ (splitBlocks l).2.length < 16 := by
  obtain ⟨bs, t, rfl, ht, -⟩ := exists_joinBlocks_append _ l rfl
  simp [ht]

/-- The tail has `len mod 16` bytes. -/
theorem splitBlocks_tail_length (l : List Byte) : (splitBlocks l).2.length = l.length % 16 := by
  obtain ⟨bs, t, rfl, ht, -⟩ := exists_joinBlocks_append _ l rfl
  simp [ht]; omega

end Sys2Proof.Machine
end

