-- ==== Sys2Proof/Laws/Counter.lean ====
section
/-! SUPPORT. The CTR counter: a block and its big-endian 128-bit integer determine each other (R30, R141). -/

namespace Sys2Proof

/-- The bytes of an integer, `n` of them, most significant first. -/
def bigEndianBytes (m : Nat) : Nat → List Byte
  | 0 => []
  | n + 1 => bigEndianBytes (m / 256) n ++ [BitVec.ofNat 8 m]

theorem bytesToNat_append_singleton (l : List Byte) (b : Byte) :
    bytesToNat (l ++ [b]) = bytesToNat l * 256 + b.toNat := by
  simp [bytesToNat]

theorem bytesToNat_bigEndianBytes (n : Nat) : ∀ m, bytesToNat (bigEndianBytes m n) = m % 256 ^ n := by
  induction n with
  | zero => intro m; simp [bigEndianBytes, bytesToNat, Nat.mod_one]
  | succ n ih =>
    intro m
    rw [bigEndianBytes, bytesToNat_append_singleton, ih, Nat.pow_succ, Nat.mul_comm (256 ^ n), Nat.mod_mul]
    simp [BitVec.toNat_ofNat]
    omega

/-- The bytes of a byte sequence's integer are the sequence. -/
theorem bigEndianBytes_bytesToNat (l : List Byte) : bigEndianBytes (bytesToNat l) l.length = l := by
  induction l using List.reverseRecOn with
  | nil => rfl
  | append_singleton l b ih =>
    rw [bytesToNat_append_singleton, List.length_append, List.length_singleton, bigEndianBytes]
    have h1 : (bytesToNat l * 256 + b.toNat) / 256 = bytesToNat l := by omega
    have h2 : BitVec.ofNat 8 (bytesToNat l * 256 + b.toNat) = b := by
      apply BitVec.eq_of_toNat_eq; have := b.isLt; simp; omega
    rw [h1, h2, ih]

/-- The bytes of a counter block are the bytes of its integer. -/
theorem Block.toBytes_ofCounter (n : Nat) : (Block.ofCounter n).toBytes = bigEndianBytes n 16 := by
  simp [Block.ofCounter, Block.ofFn, Word.ofFn, Block.toBytes, Word.toBytes, bigEndianBytes, Nat.div_div_eq_div_mul]

@[simp] theorem Block.toCounter_ofCounter (n : Nat) : (Block.ofCounter n).toCounter = n % 2 ^ 128 := by
  rw [Block.toCounter, Block.toBytes_ofCounter, bytesToNat_bigEndianBytes]
  norm_num

@[simp] theorem Block.ofCounter_toCounter (s : Block) : Block.ofCounter s.toCounter = s :=
  Block.toBytes_injective (by
    rw [Block.toBytes_ofCounter, Block.toCounter, ← Block.toBytes_length s, bigEndianBytes_bytesToNat])

/-- Only the low 128 bits of an integer matter to its counter block. -/
@[simp] theorem Block.ofCounter_mod (n : Nat) : Block.ofCounter (n % 2 ^ 128) = Block.ofCounter n := by
  rw [← Block.toCounter_ofCounter, Block.ofCounter_toCounter]

end Sys2Proof

namespace Sys2Proof.Machine

/-- `k` more after one increment is `k + 1` more. -/
theorem ofCounter_inc128_add (S : Block) (k : Nat) :
    Block.ofCounter ((inc128 S).toCounter + k) = Block.ofCounter (S.toCounter + (k + 1)) := by
  simp only [inc128, Block.toCounter_ofCounter, Nat.mod_mod]
  rw [← Block.ofCounter_mod, ← Block.ofCounter_mod (S.toCounter + (k + 1))]
  congr 1
  omega

/-- CTR: block `k` is XORed with `Enc` of the counter plus `k`, and the counter ends past the last block (R138). -/
theorem runBlocks_ctr (r : Session) (S : Block) (X : List Block) :
    (∀ (k : Nat) (x y : Block), X[k]? = some x → (runBlocks (ctrBlock r) S X).1[k]? = some y →
      y = (r.enc (Block.ofCounter (S.toCounter + k))).xor x) ∧
      (runBlocks (ctrBlock r) S X).2 = Block.ofCounter (S.toCounter + X.length) := by
  induction X generalizing S with
  | nil => simp [runBlocks]
  | cons x xs ih =>
    obtain ⟨h1, h2⟩ := ih (inc128 S)
    refine ⟨fun k a y ha hy => ?_, ?_⟩
    · cases k with
      | zero => simp [runBlocks, ctrBlock] at ha hy; subst ha hy; simp
      | succ k =>
        rw [← ofCounter_inc128_add]
        exact h1 k a y (by simpa using ha) (by simpa [runBlocks, ctrBlock] using hy)
    · simp only [runBlocks, ctrBlock, h2]
      exact ofCounter_inc128_add S xs.length

end Sys2Proof.Machine
end

