-- ==== Sys2Proof/Laws/Decode.lean ====
section
/-! SUPPORT. The fields of a command word as numbers (R61 to R66), and the fields of the words the encoder writes. -/

namespace Sys2Proof

/-! ## A field is a slice of the word read as a number -/

theorem opField_toNat (w : BitVec 32) : (opField w).toNat = w.toNat % 2 ^ 4 := by simp [opField]
theorem modeField_toNat (w : BitVec 32) : (modeField w).toNat = w.toNat / 2 ^ 4 % 2 ^ 3 := by
  simp [modeField, Nat.shiftRight_eq_div_pow]
theorem klenField_toNat (w : BitVec 32) : (klenField w).toNat = w.toNat / 2 ^ 8 % 2 ^ 6 := by
  simp [klenField, Nat.shiftRight_eq_div_pow]
theorem ivlenField_toNat (w : BitVec 32) : (ivlenField w).toNat = w.toNat / 2 ^ 14 % 2 ^ 6 := by
  simp [ivlenField, Nat.shiftRight_eq_div_pow]
theorem rsvFieldI_toNat (w : BitVec 32) : (rsvFieldI w).toNat = w.toNat / 2 ^ 20 := by
  simp only [rsvFieldI, BitVec.extractLsb'_toNat, Nat.shiftRight_eq_div_pow]; omega
theorem lenField_toNat (w : BitVec 32) : (lenField w).toNat = w.toNat / 2 ^ 8 := by
  simp only [lenField, BitVec.extractLsb'_toNat, Nat.shiftRight_eq_div_pow]; omega
theorem rsvFieldD_toNat (w : BitVec 32) : (rsvFieldD w).toNat = w.toNat / 2 ^ 4 % 2 ^ 4 := by
  simp [rsvFieldD, Nat.shiftRight_eq_div_pow]
theorem rsvFieldZ_toNat (w : BitVec 32) : (rsvFieldZ w).toNat = w.toNat / 2 ^ 4 := by
  simp only [rsvFieldZ, BitVec.extractLsb'_toNat, Nat.shiftRight_eq_div_pow]; omega
theorem ivpField_eq (w : BitVec 32) : ivpField w = decide (w.toNat / 2 ^ 7 % 2 = 1) := by
  simp [ivpField, BitVec.getLsbD, Nat.testBit_eq_decide_div_mod_eq]

/-! ## The words the encoder writes -/

section formatI
variable (ivlen klen : BitVec 6) (ivp : Bool) (mode : BitVec 3)

theorem encodeWordI_toNat : (encodeWordI ivlen klen ivp mode).toNat =
    ivlen.toNat * 2 ^ 14 + klen.toNat * 2 ^ 8 + ivp.toNat * 2 ^ 7 + mode.toNat * 2 ^ 4 + 1 := by
  have := ivp.toNat_le
  simp only [encodeWordI, BitVec.toNat_ofNat]; omega

@[simp] theorem opField_encodeWordI : opField (encodeWordI ivlen klen ivp mode) = 0x1 := by
  apply BitVec.eq_of_toNat_eq; rw [opField_toNat, encodeWordI_toNat]; simp; omega
@[simp] theorem modeField_encodeWordI : modeField (encodeWordI ivlen klen ivp mode) = mode := by
  have := ivp.toNat_le
  apply BitVec.eq_of_toNat_eq; rw [modeField_toNat, encodeWordI_toNat]; omega
@[simp] theorem klenField_encodeWordI : klenField (encodeWordI ivlen klen ivp mode) = klen := by
  have := ivp.toNat_le
  apply BitVec.eq_of_toNat_eq; rw [klenField_toNat, encodeWordI_toNat]; omega
@[simp] theorem ivlenField_encodeWordI : ivlenField (encodeWordI ivlen klen ivp mode) = ivlen := by
  have := ivp.toNat_le
  apply BitVec.eq_of_toNat_eq; rw [ivlenField_toNat, encodeWordI_toNat]; omega
@[simp] theorem rsvFieldI_encodeWordI : rsvFieldI (encodeWordI ivlen klen ivp mode) = 0 := by
  have := ivp.toNat_le
  apply BitVec.eq_of_toNat_eq; rw [rsvFieldI_toNat, encodeWordI_toNat]; simp; omega
@[simp] theorem ivpField_encodeWordI : ivpField (encodeWordI ivlen klen ivp mode) = ivp := by
  rw [ivpField_eq, encodeWordI_toNat]; cases ivp <;> simp <;> omega

end formatI

section formatD
variable (len : BitVec 24) (op : BitVec 4)

theorem encodeWordD_toNat : (encodeWordD len op).toNat = len.toNat * 2 ^ 8 + op.toNat := by
  simp only [encodeWordD, BitVec.toNat_ofNat]; omega

@[simp] theorem opField_encodeWordD : opField (encodeWordD len op) = op := by
  apply BitVec.eq_of_toNat_eq; rw [opField_toNat, encodeWordD_toNat]; omega
@[simp] theorem lenField_encodeWordD : lenField (encodeWordD len op) = len := by
  apply BitVec.eq_of_toNat_eq; rw [lenField_toNat, encodeWordD_toNat]; omega
@[simp] theorem rsvFieldD_encodeWordD : rsvFieldD (encodeWordD len op) = 0 := by
  apply BitVec.eq_of_toNat_eq; rw [rsvFieldD_toNat, encodeWordD_toNat]; simp; omega

end formatD

@[simp] theorem opField_encodeWordZ (op : BitVec 4) : opField (encodeWordZ op) = op := by
  apply BitVec.eq_of_toNat_eq; rw [opField_toNat]; simp [encodeWordZ]; omega
@[simp] theorem rsvFieldZ_encodeWordZ (op : BitVec 4) : rsvFieldZ (encodeWordZ op) = 0 := by
  apply BitVec.eq_of_toNat_eq; rw [rsvFieldZ_toNat]; simp [encodeWordZ]; omega

end Sys2Proof
end

