-- ==== Sys2Proof/Laws/Engines.lean ====
section
/-! SUPPORT. Laws of the mode engines and their driver: lengths, splitting at a block boundary, what the driver does
with blocks and a tail. -/

namespace Sys2Proof.Machine

section run
variable (rule : Block → Block → Block × Block)

@[simp] theorem runBlocks_nil (S : Block) : runBlocks rule S [] = ([], S) := rfl

@[simp] theorem runBlocks_cons (S X : Block) (rest : List Block) :
    runBlocks rule S (X :: rest) =
      ((rule S X).1 :: (runBlocks rule (rule S X).2 rest).1, (runBlocks rule (rule S X).2 rest).2) := rfl

@[simp] theorem runBlocks_length (S : Block) (X : List Block) : (runBlocks rule S X).1.length = X.length := by
  induction X generalizing S with
  | nil => rfl
  | cons x xs ih => simp [ih]

/-- The chain value threads through the blocks, so a run may be cut anywhere (R52). -/
theorem runBlocks_append (S : Block) (X Y : List Block) :
    runBlocks rule S (X ++ Y) =
      ((runBlocks rule S X).1 ++ (runBlocks rule (runBlocks rule S X).2 Y).1,
        (runBlocks rule (runBlocks rule S X).2 Y).2) := by
  induction X generalizing S with
  | nil => rfl
  | cons x xs ih => simp [ih]

end run

/-- CBC encryption: each output block from the input block and the ciphertext block before it (R133, R143). -/
theorem runBlocks_cbc_enc (r : Session) (S : Block) (X : List Block) :
    let Y := (runBlocks (cbcBlock .enc r) S X).1
    (∀ (k : Nat) (x y : Block), X[k]? = some x → Y[k]? = some y → y = r.enc (x.xor ((S :: Y).getD k Block.zero))) ∧
      (runBlocks (cbcBlock .enc r) S X).2 = Y.getLastD S := by
  induction X generalizing S with
  | nil => simp
  | cons x xs ih =>
    obtain ⟨h1, h2⟩ := ih (r.enc (x.xor S))
    refine ⟨fun k a y ha hy => ?_, ?_⟩
    · cases k with
      | zero => simp [cbcBlock] at ha hy; subst ha hy; rfl
      | succ k => exact h1 k a y (by simpa using ha) (by simpa [cbcBlock] using hy)
    · simp only [runBlocks_cons, cbcBlock, h2]
      cases (runBlocks (cbcBlock .enc r) (r.enc (x.xor S)) xs).1 <;> rfl

/-- CBC decryption (R134, R143). -/
theorem runBlocks_cbc_dec (r : Session) (S : Block) (X : List Block) :
    (∀ (k : Nat) (x y : Block), X[k]? = some x → (runBlocks (cbcBlock .dec r) S X).1[k]? = some y →
      y = (r.dec x).xor ((S :: X).getD k Block.zero)) ∧
      (runBlocks (cbcBlock .dec r) S X).2 = X.getLastD S := by
  induction X generalizing S with
  | nil => simp
  | cons x xs ih =>
    obtain ⟨h1, h2⟩ := ih x
    refine ⟨fun k a y ha hy => ?_, ?_⟩
    · cases k with
      | zero => simp [cbcBlock] at ha hy; subst ha hy; rfl
      | succ k => exact h1 k a y (by simpa using ha) (by simpa [cbcBlock] using hy)
    · simp only [runBlocks_cons, cbcBlock, h2]
      cases xs <;> rfl

/-- CFB encryption of full chunks (R135, R144). -/
theorem runBlocks_cfb_enc (r : Session) (S : Block) (X : List Block) :
    let Y := (runBlocks (cfbBlock .enc r) S X).1
    (∀ (k : Nat) (x y : Block), X[k]? = some x → Y[k]? = some y → y = (r.enc ((S :: Y).getD k Block.zero)).xor x) ∧
      (runBlocks (cfbBlock .enc r) S X).2 = Y.getLastD S := by
  induction X generalizing S with
  | nil => simp
  | cons x xs ih =>
    obtain ⟨h1, h2⟩ := ih ((r.enc S).xor x)
    refine ⟨fun k a y ha hy => ?_, ?_⟩
    · cases k with
      | zero => simp [cfbBlock] at ha hy; subst ha hy; rfl
      | succ k => exact h1 k a y (by simpa using ha) (by simpa [cfbBlock] using hy)
    · simp only [runBlocks_cons, cfbBlock, h2]
      cases (runBlocks (cfbBlock .enc r) ((r.enc S).xor x) xs).1 <;> rfl

/-- CFB decryption of full chunks (R136, R144). -/
theorem runBlocks_cfb_dec (r : Session) (S : Block) (X : List Block) :
    (∀ (k : Nat) (x y : Block), X[k]? = some x → (runBlocks (cfbBlock .dec r) S X).1[k]? = some y →
      y = (r.enc ((S :: X).getD k Block.zero)).xor x) ∧
      (runBlocks (cfbBlock .dec r) S X).2 = X.getLastD S := by
  induction X generalizing S with
  | nil => simp
  | cons x xs ih =>
    obtain ⟨h1, h2⟩ := ih x
    refine ⟨fun k a y ha hy => ?_, ?_⟩
    · cases k with
      | zero => simp [cfbBlock] at ha hy; subst ha hy; rfl
      | succ k => exact h1 k a y (by simpa using ha) (by simpa [cfbBlock] using hy)
    · simp only [runBlocks_cons, cfbBlock, h2]
      cases xs <;> rfl

/-- The blocks and tail of a payload after some whole blocks. -/
theorem splitBlocks_append {a b : List Byte} (h : a.length % 16 = 0) :
    splitBlocks (a ++ b) = ((splitBlocks a).1 ++ (splitBlocks b).1, (splitBlocks b).2) := by
  obtain ⟨X, t, rfl, ht, -⟩ := exists_joinBlocks_append _ a rfl
  obtain ⟨Y, u, rfl, hu, -⟩ := exists_joinBlocks_append _ b rfl
  have : t = [] := by simp at h; exact List.eq_nil_of_length_eq_zero (by omega)
  subst this
  rw [List.append_nil, ← List.append_assoc, ← joinBlocks_append]
  rw [splitBlocks_joinBlocks_append _ hu, splitBlocks_joinBlocks_append _ hu, splitBlocks_joinBlocks]

/-- The driver of ECB and CBC on whole blocks. -/
theorem driveFull_join (rule : Block → Block → Block × Block) (r : Session) (X : List Block) :
    driveFull rule r (joinBlocks X) =
      ⟨joinBlocks (runBlocks rule r.chain X).1, (runBlocks rule r.chain X).2, r.partialFlag⟩ := by
  simp [driveFull]

/-- The driver of CFB and CTR on whole blocks. -/
theorem driveStream_join (rule : Block → Block → Block × Block) (short : Block → List Byte → List Byte × Block)
    (r : Session) (X : List Block) :
    driveStream rule short r (joinBlocks X) =
      ⟨joinBlocks (runBlocks rule r.chain X).1, (runBlocks rule r.chain X).2, r.partialFlag⟩ := by
  simp [driveStream]

/-- The driver of CFB and CTR on blocks and a tail. -/
theorem driveStream_join_tail (rule : Block → Block → Block × Block)
    (short : Block → List Byte → List Byte × Block) (r : Session) (X : List Block) {t : List Byte} (hne : t ≠ [])
    (ht : t.length < 16) :
    driveStream rule short r (joinBlocks X ++ t) =
      ⟨joinBlocks (runBlocks rule r.chain X).1 ++ (short (runBlocks rule r.chain X).2 t).1,
        (short (runBlocks rule r.chain X).2 t).2, true⟩ := by
  obtain ⟨x, xs, rfl⟩ := List.exists_cons_of_ne_nil hne
  simp [driveStream, splitBlocks_joinBlocks_append X ht]

/-- The block `Ct || K[L..16)` has those bytes (R137). -/
theorem completeWith_toBytes (K : Block) {ct : List Byte} (h : ct.length ≤ 16) :
    (completeWith ct K).toBytes = ct ++ K.toBytes.drop ct.length := by
  obtain ⟨b, hb⟩ := Block.exists_toBytes (l := ct ++ K.toBytes.drop ct.length) (by simp; omega)
  have : completeWith ct K = b := by
    unfold completeWith
    rw [← hb]
    rfl
  rw [this, hb]

/-- `PARTIAL` after the driver: only a tail changes it, in CFB and CTR, and only to 1 (R31, R143, R144). -/
theorem runEngine_partialFlag (dir : Dir) (r : Session) (data : List Byte) :
    (runEngine dir r data).partialFlag =
      if (r.mode = .cfb ∨ r.mode = .ctr) ∧ data.length % 16 ≠ 0 then true else r.partialFlag := by
  rw [← splitBlocks_tail_length]
  unfold runEngine driveFull driveStream
  cases r.mode <;> simp <;> split <;> simp_all

/-- `CHAIN` does not change in ECB (R29, R143). -/
theorem runBlocks_ecb (dir : Dir) (r : Session) (S : Block) (X : List Block) :
    runBlocks (ecbBlock dir r) S X = (X.map (match dir with | .enc => r.enc | .dec => r.dec), S) := by
  induction X generalizing S with
  | nil => rfl
  | cons x xs ih => cases dir <;> simp [ecbBlock, ih]

/-- `CHAIN` after a data command in ECB. -/
theorem runEngine_chain_ecb {dir : Dir} {r : Session} {data : List Byte} (h : r.mode = .ecb) :
    (runEngine dir r data).chain = r.chain := by
  simp [runEngine, h, driveFull, runBlocks_ecb]

end Sys2Proof.Machine
end

