-- ==== Sys2Proof/Laws/KeySchedule.lean ====
section
/-! SUPPORT. Laws of the key schedule: sizes (R80), the words the loop keeps (R91), the recurrence (R87), the store (R93). -/

namespace Sys2Proof.Machine

/-- R82: a key of `4*n` bytes is `n` words. -/
theorem keyWords_length (n : Nat) : ∀ key : List Byte, key.length = 4 * n → (keyWords key).length = n := by
  induction n with
  | zero =>
    intro key h
    obtain rfl := List.eq_nil_of_length_eq_zero h
    rfl
  | succ n ih =>
    intro key h
    match key, h with
    | b0 :: b1 :: b2 :: b3 :: rest, h =>
      simp only [keyWords, List.length_cons]
      rw [ih rest (by simp at h; omega)]

@[simp] theorem expandLoop_length (nk n : Nat) (w : List Word) : (expandLoop nk n w).length = w.length + n := by
  induction n generalizing w with
  | zero => rfl
  | succ n ih => simp [expandLoop, ih]; omega

/-- R91: the words there are read, never changed. -/
theorem expandLoop_getElem? (nk n : Nat) (w : List Word) {i : Nat} (h : i < w.length) :
    (expandLoop nk n w)[i]? = w[i]? := by
  induction n generalizing w with
  | zero => rfl
  | succ n ih => rw [expandLoop, ih _ (by simp; omega), List.getElem?_append_left h]

/-- R87: each new word is the next word of the part of the schedule before it. -/
theorem expandLoop_next (nk n : Nat) (w : List Word) {i : Nat} (h : w.length ≤ i) (h' : i < w.length + n) :
    (expandLoop nk n w)[i]? = some (expandNext nk ((expandLoop nk n w).take i)) := by
  induction n generalizing w with
  | zero => omega
  | succ n ih =>
    by_cases hi : i = w.length
    · subst hi
      have htake : (expandLoop nk (n + 1) w).take w.length = w := by
        apply List.ext_getElem?
        intro j
        by_cases hj : j < w.length
        · rw [List.getElem?_take_of_lt hj, expandLoop_getElem? _ _ _ hj]
        · rw [List.getElem?_eq_none (by simp; omega), List.getElem?_eq_none (by omega)]
      rw [htake, expandLoop, expandLoop_getElem? _ _ _ (by simp)]
      simp
    · exact ih (w ++ [expandNext nk w]) (by simp; omega) (by simp; omega)

/-- R80: `4*(Nr+1)` words for a key of 16, 24 or 32 bytes. -/
theorem keyExpansion_length {key : List Byte} (h : key.length = 16 ∨ key.length = 24 ∨ key.length = 32) :
    (keyExpansion key).length = scheduleLength (key.length / 4) := by
  rw [keyExpansion, expandWords, expandLoop_length, keyWords_length (key.length / 4) key (by omega)]
  simp only [scheduleLength, roundsOf]
  omega

/-- R93: the round-key file holds the schedule and then zeros. -/
theorem storeSchedule_getElem (w : List Word) (i : Nat) (h : i < 60) :
    (storeSchedule w)[i] = w.getD i Word.zero := by
  simp [storeSchedule]

end Sys2Proof.Machine
end

