-- ==== Sys2Proof/Laws/State.lean ====
section
/-! SUPPORT. One lemma per field per update of the state, true by definition, so that no proof unfolds a record update. -/

namespace Sys2Proof.Machine

variable (s : State) (r : Session)

@[simp] theorem writeSession_session : (s.writeSession r).session = r := rfl
@[simp] theorem writeSession_input : (s.writeSession r).input = s.input := rfl
@[simp] theorem writeSession_responses : (s.writeSession r).responses = s.responses := rfl

@[simp] theorem applyReset_session : s.applyReset.session = Session.reset := rfl
@[simp] theorem applyReset_input : s.applyReset.input = s.input := rfl
@[simp] theorem applyReset_responses : s.applyReset.responses = s.responses := rfl

@[simp] theorem advance_configured (d : DataResult) : (r.advance d).configured = r.configured := rfl
@[simp] theorem advance_mode (d : DataResult) : (r.advance d).mode = r.mode := rfl
@[simp] theorem advance_klen (d : DataResult) : (r.advance d).klen = r.klen := rfl
@[simp] theorem advance_rk (d : DataResult) : (r.advance d).rk = r.rk := rfl
@[simp] theorem advance_chain (d : DataResult) : (r.advance d).chain = d.chain := rfl
@[simp] theorem advance_partialFlag (d : DataResult) : (r.advance d).partialFlag = d.partialFlag := rfl

/-- A data command whose result is what was there writes no register (R147). -/
@[simp] theorem advance_self (out : List Byte) : r.advance ⟨out, r.chain, r.partialFlag⟩ = r := rfl

variable (m : Mode) (key : List Byte) (chain : Block)

@[simp] theorem construct_configured : (Session.construct m key chain).configured = true := rfl
@[simp] theorem construct_mode : (Session.construct m key chain).mode = m := rfl
@[simp] theorem construct_klen : (Session.construct m key chain).klen = BitVec.ofNat 6 key.length := rfl
@[simp] theorem construct_rk : (Session.construct m key chain).rk = storeSchedule (keyExpansion key) := rfl
@[simp] theorem construct_chain : (Session.construct m key chain).chain = chain := rfl
@[simp] theorem construct_partialFlag : (Session.construct m key chain).partialFlag = false := rfl

/-- Ending a command keeps everything but the responses, to which it adds one. -/
theorem respond_eq (status : Status) (out : List Byte) :
    s.respond status out = .next { s with responses := s.responses ++ [⟨status, out⟩] } := rfl

/-- An error is a response with an empty output and nothing else. -/
theorem raise_eq (e : Status) : s.raise e = .next { s with responses := s.responses ++ [⟨e, []⟩] } := rfl

/-- `Enc` reads only the round keys and the key length (R125). -/
theorem enc_congr {r r' : Session} (hk : r.rk = r'.rk) (hl : r.klen = r'.klen) (x : Block) : r.enc x = r'.enc x := by
  simp only [Session.enc, hk, hl]

/-- `Dec` reads only the round keys and the key length (R125). -/
theorem dec_congr {r r' : Session} (hk : r.rk = r'.rk) (hl : r.klen = r'.klen) (x : Block) : r.dec x = r'.dec x := by
  simp only [Session.dec, hk, hl]

end Sys2Proof.Machine
end

