-- ==== Sys2Proof/Laws/Ops.lean ====
section
/-! SUPPORT. What each shared operation and each instruction can do, said once. -/

namespace Sys2Proof.Machine

/-- The status of a data command, as its four cases (R195 items 3 and 4). -/
theorem dataStatus_notInitialised {r : Session} (h : r.configured = false) (n : Nat) :
    dataStatus r n = .notInitialised := by
  simp [dataStatus, h]

/-- A session ends a data command `OK` exactly when it accepts the length. -/
theorem dataStatus_ok_iff {r : Session} (h : r.configured = true) (n : Nat) :
    dataStatus r n = .ok ↔
      (((r.mode = .ecb ∨ r.mode = .cbc) → n % 16 = 0) ∧
        ((r.mode = .cfb ∨ r.mode = .ctr) → r.partialFlag = false ∨ n = 0)) := by
  cases hm : r.mode <;> cases hp : r.partialFlag <;> simp [dataStatus, h, hm, hp]

/-- A data command ends `OK` with the driver's result, or with an error. -/
theorem dataCommand_cases (dir : Dir) (data : List Byte) (s : State) :
    (dataStatus s.session data.length = .ok ∧
      dataCommand dir data s =
        (s.writeSession (s.session.advance (runEngine dir s.session data))).respond .ok
          (runEngine dir s.session data).out) ∨
    (dataStatus s.session data.length ≠ .ok ∧
      dataCommand dir data s = s.raise (dataStatus s.session data.length)) := by
  unfold dataCommand
  split
  · rename_i h; exact .inl ⟨h, rfl⟩
  · rename_i h; exact .inr ⟨h, rfl⟩

/-- What a data command answers when its checks pass. -/
theorem dataCommand_ok {dir : Dir} {data : List Byte} {s : State} (h : dataStatus s.session data.length = .ok) :
    dataCommand dir data s = .next
      { session := s.session.advance (runEngine dir s.session data), input := s.input,
        responses := s.responses ++ [⟨.ok, (runEngine dir s.session data).out⟩] } := by
  simp [dataCommand, h, respond_eq, State.writeSession]

/-- What a data command answers when a check fails. -/
theorem dataCommand_error {dir : Dir} {data : List Byte} {s : State} (h : dataStatus s.session data.length ≠ .ok) :
    dataCommand dir data s =
      .next { s with responses := s.responses ++ [⟨dataStatus s.session data.length, []⟩] } := by
  rcases dataCommand_cases dir data s with ⟨h', -⟩ | ⟨-, h'⟩
  · exact absurd h' h
  · rw [h', raise_eq]

/-- What a query of the session answers. -/
theorem sessionQuery_eq (out : Session → List Byte) (s : State) :
    sessionQuery out s =
      if s.session.configured = false then .next { s with responses := s.responses ++ [⟨.notInitialised, []⟩] }
      else .next { s with responses := s.responses ++ [⟨.ok, out s.session⟩] } := rfl

/-- When the checks of `INIT` pass: a legal key length, a mode the code names, and the first chain value of that mode. -/
theorem checkInit_ok_iff {mode : BitVec 3} {key : List Byte} {iv : Option (List Byte)} {m : Mode} {chain : Block} :
    checkInit mode key iv = .ok (m, chain) ↔
      legalKeyLength key.length = true ∧ Mode.ofField mode = some m ∧ initialChain m iv = .ok chain := by
  unfold checkInit
  cases legalKeyLength key.length <;> cases Mode.ofField mode <;> simp
  rename_i m'
  constructor
  · intro h
    cases hc : initialChain m' iv <;> simp [hc] at h
    obtain ⟨rfl, rfl⟩ := h
    exact ⟨rfl, hc⟩
  · rintro ⟨rfl, hc⟩
    simp [hc]

/-- The first chain value: zero in ECB, the IV's block in the other modes (R163, R164). -/
theorem initialChain_ok_iff {m : Mode} {iv : Option (List Byte)} {chain : Block} :
    initialChain m iv = .ok chain ↔
      (m = .ecb ∧ chain = Block.zero ∨ m ≠ .ecb ∧ iv = some chain.toBytes) := by
  unfold initialChain
  split
  · simp [eq_comm]
  · rename_i h
    have h : m ≠ .ecb := fun e => h e
    simp [h]
  · rename_i v h
    have h : m ≠ .ecb := fun e => h e
    simp only [h, false_and, false_or, ne_eq, not_false_eq_true, true_and, Option.some.injEq]
    cases hb : Block.ofBytes? v with
    | none =>
      simp only [reduceCtorEq, false_iff]
      rintro rfl
      simp at hb
    | some b =>
      obtain rfl := Block.toBytes_of_ofBytes? hb
      simp only [Except.ok.injEq]
      exact ⟨fun h => h ▸ rfl, Block.toBytes_injective⟩

/-- Every instruction answers a next state: it takes nothing from the host port but its own event, and adds exactly one
response, empty unless the status is `OK`, when no register may have changed. -/
theorem exec_cases (i : Instr) (s : State) :
    ∃ t r, exec i s = .next t ∧ t.input = s.input ∧ t.responses = s.responses ++ [r] ∧
      (r.status ≠ .ok → t.session = s.session ∧ r.out = []) := by
  have data (dir : Dir) (d : List Byte) : ∃ t r, dataCommand dir d s = .next t ∧ t.input = s.input ∧
      t.responses = s.responses ++ [r] ∧ (r.status ≠ .ok → t.session = s.session ∧ r.out = []) := by
    by_cases h : dataStatus s.session d.length = .ok
    · exact ⟨_, _, dataCommand_ok h, rfl, rfl, fun hr => absurd rfl hr⟩
    · exact ⟨_, _, dataCommand_error h, rfl, rfl, fun _ => ⟨rfl, rfl⟩⟩
  have query (out : Session → List Byte) : ∃ t r, sessionQuery out s = .next t ∧ t.input = s.input ∧
      t.responses = s.responses ++ [r] ∧ (r.status ≠ .ok → t.session = s.session ∧ r.out = []) := by
    rw [sessionQuery_eq]
    split
    · exact ⟨_, _, rfl, rfl, rfl, fun _ => ⟨rfl, rfl⟩⟩
    · exact ⟨_, _, rfl, rfl, rfl, fun hr => absurd rfl hr⟩
  cases i with
  | init mode key iv =>
    simp only [exec, execInit]
    split
    · exact ⟨_, _, rfl, rfl, rfl, fun _ => ⟨rfl, rfl⟩⟩
    · exact ⟨_, _, rfl, rfl, rfl, fun hr => absurd rfl hr⟩
  | encrypt d => exact data .enc d
  | decrypt d => exact data .dec d
  | getIv => exact query fun r => r.chain.toBytes
  | getBlockSize => exact ⟨_, _, rfl, rfl, rfl, fun hr => absurd rfl hr⟩
  | getKeySize => exact query fun r => [r.klen.setWidth 8]
  | getMode => exact query fun r => [r.mode.code.setWidth 8]
  | release => exact ⟨_, _, rfl, rfl, rfl, fun hr => absurd rfl hr⟩

/-- What a step can do: nothing when no event waits, a reset, an instruction, or the rejection of an illegal command. -/
theorem step_cases (s : State) :
    (s.input = [] ∧ step s = .next s) ∨
    (∃ rest, s.input = .reset :: rest ∧ step s = .next { s with session := Session.reset, input := rest }) ∨
    (∃ c rest i, s.input = .command c :: rest ∧ decode c = .ok i ∧ step s = exec i { s with input := rest }) ∨
    (∃ c rest e, s.input = .command c :: rest ∧ decode c = .error e ∧
      step s = .next { s with input := rest, responses := s.responses ++ [⟨.illegalCommand, []⟩] }) := by
  cases hs : s.input with
  | nil => exact .inl ⟨rfl, by simp [step, State.takeEvent, hs]⟩
  | cons e rest =>
    cases e with
    | reset => exact .inr (.inl ⟨rest, rfl, by simp [step, State.takeEvent, hs, State.applyReset, State.writeSession]⟩)
    | command c =>
      cases hc : decode c with
      | ok i => exact .inr (.inr (.inl ⟨c, rest, i, rfl, hc, by simp [step, State.takeEvent, hs, hc]⟩))
      | error e =>
        exact .inr (.inr (.inr ⟨c, rest, e, rfl, hc, by simp [step, State.takeEvent, hs, hc, raise_eq]⟩))

/-! ## Runs -/

@[simp] theorem run_zero (s : State) : run 0 s = .next s := rfl

/-- A run of `k + 1` steps whose first step answers a next state is the run of `k` steps from there. -/
theorem run_succ {k : Nat} {s t : State} (h : step s = .next t) : run (k + 1) s = run k t := by
  have h : Host.Core.step Sys2Proof.core s = .next t := h
  simp only [run, Host.Core.run, h]
  rfl

end Sys2Proof.Machine
end

