-- ==== Sys2Proof/Laws/PerInstr.lean ====
section
/-! SUPPORT. The family EncodedCommand: what the encoder writes for each instruction (R61, R70, R73). -/

namespace Sys2Proof

/-- The opcode of an instruction (R70). -/
def Instr.opcode : Instr → BitVec 4
  | .init _ _ _ => 0x1
  | .encrypt _ => 0x2
  | .decrypt _ => 0x3
  | .getIv => 0x4
  | .getBlockSize => 0x5
  | .getKeySize => 0x6
  | .getMode => 0x7
  | .release => 0x8

end Sys2Proof

/-- The encoded word of a well-formed instruction carries its opcode (R61, R70), and its payload has the length the word
requires (R73). -/
def Sys2Proof.Laws.EncodedCommand.Statement (i : Sys2Proof.Instr) : Prop :=
  i.wf = true → opField (encode i).word = i.opcode ∧ (encode i).payload.length = requiredPayload (encode i).word

namespace Sys2Proof.Laws.EncodedCommand

theorem init (mode : BitVec 3) (key : List Byte) (iv : Option (List Byte)) : Statement (.init mode key iv) := by
  intro h
  cases iv with
  | none =>
    simp only [Instr.wf, Bool.and_eq_true, decide_eq_true_eq] at h
    simp [encode, Instr.opcode, requiredPayload, initPayloadLength, Nat.mod_eq_of_lt h.1]
  | some iv =>
    simp only [Instr.wf, ivFits, Bool.and_eq_true, decide_eq_true_eq] at h
    simp [encode, Instr.opcode, requiredPayload, initPayloadLength, Nat.mod_eq_of_lt h.1, Nat.mod_eq_of_lt h.2]

theorem encrypt (data : List Byte) : Statement (.encrypt data) := by
  intro h
  simp only [Instr.wf, decide_eq_true_eq] at h
  simp [encode, Instr.opcode, requiredPayload]; omega

theorem decrypt (data : List Byte) : Statement (.decrypt data) := by
  intro h
  simp only [Instr.wf, decide_eq_true_eq] at h
  simp [encode, Instr.opcode, requiredPayload]; omega

theorem getIv : Statement .getIv := fun _ => by decide

theorem getBlockSize : Statement .getBlockSize := fun _ => by decide

theorem getKeySize : Statement .getKeySize := fun _ => by decide

theorem getMode : Statement .getMode := fun _ => by decide

theorem release : Statement .release := fun _ => by decide

end Sys2Proof.Laws.EncodedCommand
end

