-- ==== Sys2Proof/Laws/RoundTransform.lean ====
section
/-! SUPPORT. Laws of the round operations: what each does to a byte, and which undo each other. -/

namespace Sys2Proof.Machine

/-- R109: the tables are inverse permutations of each other. -/
theorem sbox_tables_inverse :
    ∀ n : Fin 256, invSbox (sbox (BitVec.ofFin n)) = BitVec.ofFin n ∧ sbox (invSbox (BitVec.ofFin n)) = BitVec.ofFin n := by
  decide +kernel

@[simp] theorem invSbox_sbox (b : Byte) : invSbox (sbox b) = b := (sbox_tables_inverse b.toFin).1

@[simp] theorem sbox_invSbox (b : Byte) : sbox (invSbox b) = b := (sbox_tables_inverse b.toFin).2

section byte
variable (s : Block) (r c : Fin 4)

@[simp] theorem subBytes_get : (subBytes s).get r c = sbox (s.get r c) := by simp [subBytes]
@[simp] theorem invSubBytes_get : (invSubBytes s).get r c = invSbox (s.get r c) := by simp [invSubBytes]
@[simp] theorem shiftRows_get : (shiftRows s).get r c = s.get r (c + r) := by simp [shiftRows]
@[simp] theorem invShiftRows_get : (invShiftRows s).get r c = s.get r (c - r) := by simp [invShiftRows]

@[simp] theorem addRoundKey_get (rk : Vector Word 60) (round : Nat) :
    (addRoundKey rk round s).get r c = s.get r c ^^^ (rkWord rk (4 * round + c.val)).byte r := by
  simp [addRoundKey]

@[simp] theorem mixColumns_col : (mixColumns s).col c = mixColumn (s.col c) := by
  match c with
  | 0 => rfl
  | 1 => rfl
  | 2 => rfl
  | 3 => rfl

@[simp] theorem invMixColumns_col : (invMixColumns s).col c = invMixColumn (s.col c) := by
  match c with
  | 0 => rfl
  | 1 => rfl
  | 2 => rfl
  | 3 => rfl

end byte

/-- R83: each round constant is `xtime` of the one before, from `01`. -/
theorem rcon_succ : rcon 1 = 0x01 ∧ ∀ j : Fin 9, rcon (j.val + 2) = xtime (rcon (j.val + 1)) := by decide +kernel

end Sys2Proof.Machine
end

