-- ==== Sys2Proof/Tests/Slice0.lean ====
section
/-! SUPPORT. The model's own tests. Expected values are the spec's: 30_encoding.md R78 for the words, 95_test_vectors.md
for the rest (its test numbers stand in the comments). At the end, a witness for the hypotheses of each obligation. -/

namespace Sys2Proof.Tests

open Sys2Proof.Machine

/-! ## Well-formedness: an ill-formed term for each check -/

theorem test_wf_key_too_long : (Instr.init 0 (List.replicate 64 0) none).wf = false := by decide
theorem test_wf_iv_too_long : (Instr.init 1 (List.replicate 16 0) (some (List.replicate 64 0))).wf = false := by decide
theorem test_wf_data_too_long (data : List Byte) (h : data.length = 16777216) :
    (Instr.encrypt data).wf = false ∧ (Instr.decrypt data).wf = false := by simp [Instr.wf, h]

/-! ## Decoding: words written out from the formats (R62, R64, R65), each the spec's example of R78 or 95 section 6 -/

def zeros (n : Nat) : List Byte := List.replicate n 0
def counting (n : Nat) : List Byte := (List.range n).map (BitVec.ofNat 8)

/-- `INIT CBC` with a 16-byte key and a 16-byte IV: IVLEN 010000, KLEN 010000, IVP 1, MODE 001, OP 0001. -/
theorem test_decode_init :
    decode ⟨0b000000000000_010000_010000_1_001_0001, counting 32⟩ =
      .ok (.init 1 (counting 16) (some ((counting 32).drop 16))) := by decide +kernel
/-- `INIT ECB` with a 24-byte key and no IV. -/
theorem test_decode_init_no_iv : decode ⟨0x00001801, counting 24⟩ = .ok (.init 0 (counting 24) none) := by
  decide +kernel
theorem test_decode_encrypt :
    decode ⟨0b000000000000000000010000_0000_0010, counting 16⟩ = .ok (.encrypt (counting 16)) := by decide +kernel
theorem test_decode_decrypt :
    decode ⟨0b000000000000000001000000_0000_0011, counting 64⟩ = .ok (.decrypt (counting 64)) := by decide +kernel
theorem test_decode_get_iv : decode ⟨0b0000000000000000000000000000_0100, []⟩ = .ok .getIv := by decide
theorem test_decode_get_block_size : decode ⟨0b0000000000000000000000000000_0101, []⟩ = .ok .getBlockSize := by decide
theorem test_decode_get_key_size : decode ⟨0b0000000000000000000000000000_0110, []⟩ = .ok .getKeySize := by decide
theorem test_decode_get_mode : decode ⟨0b0000000000000000000000000000_0111, []⟩ = .ok .getMode := by decide
theorem test_decode_release : decode ⟨0b0000000000000000000000000000_1000, []⟩ = .ok .release := by decide

/-- E12, E13: reserved opcodes; and the last one, `1111`. -/
theorem test_decode_reserved_opcodes :
    decode ⟨0x00000000, []⟩ = .error .reservedOpcode ∧ decode ⟨0x00000009, []⟩ = .error .reservedOpcode ∧
      decode ⟨0x0000000F, []⟩ = .error .reservedOpcode := by decide
/-- E8, E23 and a format Z word with bit 31 set: reserved fields. -/
theorem test_decode_reserved_fields :
    decode ⟨0x00101001, zeros 16⟩ = .error .reservedField ∧ decode ⟨0x00001012, zeros 16⟩ = .error .reservedField ∧
      decode ⟨0x80000004, []⟩ = .error .reservedField := by decide +kernel
/-- E7: `IVP = 0` with `IVLEN = 16`. -/
theorem test_decode_iv_length_without_iv : decode ⟨0x00041011, zeros 16⟩ = .error .ivLengthWithoutIv := by
  decide +kernel
/-- E6, and a format Z command with a payload. -/
theorem test_decode_payload_length :
    decode ⟨0x00001001, zeros 15⟩ = .error .payloadLength ∧ decode ⟨0x00000008, [0]⟩ = .error .payloadLength := by
  decide +kernel
/-- E15: the 3 bytes of an IV in ECB count. -/
theorem test_decode_ecb_iv : decode ⟨0x0000D081, counting 19⟩ = .ok (.init 0 (counting 16) (some [16, 17, 18])) := by
  decide +kernel
theorem test_decode_table_words : [1, 2, 3, 4, 5, 6, 7, 8].map (decodeTableWord 32) =
    [some (.init 0 [] none), some (.encrypt []), some (.decrypt []), some .getIv, some .getBlockSize, some .getKeySize,
      some .getMode, some .release] := by decide

/-! ## Primitives (95 section 4) -/

/-- GF1, GF4, GF5. -/
theorem test_xtime : xtime 0x57 = 0xae ∧ xtime 0x80 = 0x1b ∧ xtime 0x8d = 0x01 := by decide
/-- GF2, GF3, GF6. -/
theorem test_gf_mul : gfMul 0x57 0x83 = 0xc1 ∧ gfMul 0x57 0x13 = 0xfe ∧ gfMul 0x53 0xca = 0x01 := by decide
/-- The spec's table of S-box entries. -/
theorem test_sbox : (sbox 0x00, invSbox 0x00, sbox 0x53, invSbox 0x53, sbox 0x8d, invSbox 0x8d, sbox 0xff, invSbox 0xff) =
    (0x63, 0x52, 0xed, 0x50, 0x5d, 0xb4, 0x16, 0x7d) := by decide

/-- The block `000102...0f`. -/
def countingBlock : Block := ⟨⟨0, 1, 2, 3⟩, ⟨4, 5, 6, 7⟩, ⟨8, 9, 10, 11⟩, ⟨12, 13, 14, 15⟩⟩

theorem test_shift_rows :
    (shiftRows countingBlock).toBytes = [0x00, 0x05, 0x0a, 0x0f, 0x04, 0x09, 0x0e, 0x03, 0x08, 0x0d, 0x02, 0x07, 0x0c, 0x01, 0x06, 0x0b] ∧
    (invShiftRows countingBlock).toBytes = [0x00, 0x0d, 0x0a, 0x07, 0x04, 0x01, 0x0e, 0x0b, 0x08, 0x05, 0x02, 0x0f, 0x0c, 0x09, 0x06, 0x03] := by
  decide
theorem test_mix_columns : mixColumn ⟨0xdb, 0x13, 0x53, 0x45⟩ = ⟨0x8e, 0x4d, 0xa1, 0xbc⟩ ∧
    mixColumn ⟨0x80, 0x00, 0x00, 0x00⟩ = ⟨0x1b, 0x80, 0x80, 0x9b⟩ ∧
    invMixColumn ⟨0x8e, 0x4d, 0xa1, 0xbc⟩ = ⟨0xdb, 0x13, 0x53, 0x45⟩ := by decide +kernel
/-- R12, R24: `RK[0]` of the key `2b7e...` shown as a word; R191: the status numbers. -/
theorem test_word_bits : (Word.mk 0x2b 0x7e 0x15 0x16).toBits = 0x2b7e1516 := by decide
theorem test_status_codes : [Status.ok, .invalidKeyLength, .missingIV, .invalidIVLength, .invalidInputLength,
    .partialBlockContinuation, .unsupportedMode, .notInitialised, .illegalCommand].map Status.code =
    [0, 1, 2, 3, 4, 5, 6, 7, 8] := by decide
/-- K1. -/
theorem test_rot_sub_word : rotWord ⟨0x09, 0xcf, 0x4f, 0x3c⟩ = ⟨0xcf, 0x4f, 0x3c, 0x09⟩ ∧
    subWord ⟨0xcf, 0x4f, 0x3c, 0x09⟩ = ⟨0x8a, 0x84, 0xeb, 0x01⟩ := by decide
/-- K3, K4, K5: the last word of the schedules of the all-zero keys. -/
theorem test_key_expansion : (keyExpansion (zeros 16))[43]? = some ⟨0x6f, 0x8f, 0x18, 0x8e⟩ ∧
    (keyExpansion (zeros 24))[51]? = some ⟨0x98, 0x4c, 0x59, 0x70⟩ ∧
    (keyExpansion (zeros 32))[59]? = some ⟨0xcb, 0x70, 0x63, 0x85⟩ := by decide +kernel
theorem test_inc128 : (inc128 ⟨⟨0xff, 0xff, 0xff, 0xff⟩, ⟨0xff, 0xff, 0xff, 0xff⟩, ⟨0xff, 0xff, 0xff, 0xff⟩, ⟨0xff, 0xff, 0xff, 0xff⟩⟩) = Block.zero ∧
    (inc128 ⟨⟨0x00, 0xff, 0xff, 0xff⟩, ⟨0xff, 0xff, 0xff, 0xff⟩, ⟨0xff, 0xff, 0xff, 0xff⟩, ⟨0xff, 0xff, 0xff, 0xff⟩⟩) =
      ⟨⟨0x01, 0x00, 0x00, 0x00⟩, Word.zero, Word.zero, Word.zero⟩ := by decide +kernel

/-! ## Commands -/

/-- The state a step leads to. -/
def nextOf (o : Result) : Option State :=
  match o with
  | .next s => some s
  | .fault _ => none
  | .refused _ => none

/-- The responses after a step. -/
def responsesOf (o : Result) : Option (List Response) := (nextOf o).map State.responses

/-- The chain register and `PARTIAL` after a step. -/
def chainOf (o : Result) : Option (List Byte × Bool) :=
  (nextOf o).map fun s => (s.session.chain.toBytes, s.session.partialFlag)

/-- A core that holds a session and nothing else. -/
def coreWith (r : Session) : State := { State.reset with session := r }

def keyK : List Byte := [0x2b, 0x7e, 0x15, 0x16, 0x28, 0xae, 0xd2, 0xa6, 0xab, 0xf7, 0x15, 0x88, 0x09, 0xcf, 0x4f, 0x3c]
def blockP1 : List Byte := [0x6b, 0xc1, 0xbe, 0xe2, 0x2e, 0x40, 0x9f, 0x96, 0xe9, 0x3d, 0x7e, 0x11, 0x73, 0x93, 0x17, 0x2a]
def blockT : List Byte := [0x00, 0x11, 0x22, 0x33, 0x44, 0x55, 0x66, 0x77, 0x88, 0x99, 0xaa, 0xbb, 0xcc, 0xdd, 0xee, 0xff]

/-- A session under the key `2b7e...3c`. -/
def sessionK (m : Mode) (chain : Block) : Session := Session.construct m keyK chain

/-- E15: `INIT ECB` with a 3-byte IV ends `OK` with a zero chain and `KLEN = 16`. -/
theorem test_init_ecb : (nextOf (execInit 0 (counting 16) (some [16, 17, 18]) State.reset)).map
    (fun s => (s.session.configured, s.session.mode, s.session.klen, s.session.chain, s.responses)) =
    some (true, .ecb, 16, Block.zero, [⟨.ok, []⟩]) := by decide
/-- E5: mode 4 and a 20-byte key end `InvalidKeyLength`. -/
theorem test_init_priority : responsesOf (execInit 4 (zeros 20) none State.reset) = some [⟨.invalidKeyLength, []⟩] := by
  decide

/-- 95 section 5, M2, first block: CBC. -/
theorem test_encrypt_cbc : responsesOf (execEncrypt blockP1 (coreWith (sessionK .cbc countingBlock))) =
    some [⟨.ok, [0x76, 0x49, 0xab, 0xac, 0x81, 0x19, 0xb2, 0x46, 0xce, 0xe9, 0x8e, 0x9b, 0x12, 0xe9, 0x19, 0x7d]⟩] := by
  decide +kernel
/-- M15: one byte in CFB; the chain is its ciphertext byte and the unused keystream, and `PARTIAL` is 1. -/
theorem test_encrypt_cfb_partial : chainOf (execEncrypt [0x6b] (coreWith (sessionK .cfb countingBlock))) =
    some ([0x3b, 0xfe, 0x67, 0xcc, 0x99, 0x6d, 0x32, 0xb6, 0xda, 0x09, 0x37, 0xe9, 0x9b, 0xaf, 0xec, 0x60], true) := by
  decide +kernel
/-- FIPS-197 C.3 (95 section 3.3), AES-256 ECB. -/
theorem test_decrypt_ecb_256 : responsesOf (execDecrypt
      [0x8e, 0xa2, 0xb7, 0xca, 0x51, 0x67, 0x45, 0xbf, 0xea, 0xfc, 0x49, 0x90, 0x4b, 0x49, 0x60, 0x89]
      (coreWith (Session.construct .ecb (counting 32) Block.zero))) = some [⟨.ok, blockT⟩] := by decide +kernel
/-- M14, the last chunk: CTR decryption of 4 bytes from the counter `f0...ff00`. -/
theorem test_decrypt_ctr_partial :
    let s := coreWith (sessionK .ctr
      ⟨⟨0xf0, 0xf1, 0xf2, 0xf3⟩, ⟨0xf4, 0xf5, 0xf6, 0xf7⟩, ⟨0xf8, 0xf9, 0xfa, 0xfb⟩, ⟨0xfc, 0xfd, 0xff, 0x00⟩⟩)
    responsesOf (execDecrypt [0x98, 0x06, 0xf6, 0x6b] s) = some [⟨.ok, [0xae, 0x2d, 0x8a, 0x57]⟩] := by
  decide +kernel

/-- E17, E10. -/
theorem test_get_iv :
    responsesOf (execGetIv (coreWith (sessionK .cbc countingBlock))) = some [⟨.ok, counting 16⟩] ∧
      responsesOf (execGetIv State.reset) = some [⟨.notInitialised, []⟩] := by decide +kernel
/-- E11. -/
theorem test_get_block_size : responsesOf (execGetBlockSize State.reset) = some [⟨.ok, [0x10]⟩] := by decide
/-- After `INIT ECB` with a 24-byte key, `GET_KEY_SIZE` returns `18`. -/
theorem test_get_key_size :
    responsesOf (execGetKeySize (coreWith (Session.construct .ecb (zeros 24) Block.zero))) = some [⟨.ok, [0x18]⟩] := by
  decide
/-- After `INIT CTR`, `GET_MODE` returns `03`. -/
theorem test_get_mode : responsesOf (execGetMode (coreWith (sessionK .ctr Block.zero))) = some [⟨.ok, [0x03]⟩] := by
  decide
/-- E14, and P1 step 7: the reset state, whatever was there. -/
theorem test_release : (nextOf (execRelease (coreWith (sessionK .cbc countingBlock)))).map State.session =
    some State.reset.session := by decide +kernel

/-- E12: an illegal command through the step. -/
theorem test_step_illegal :
    responsesOf (step { State.reset with input := [.command ⟨0, []⟩] }) = some [⟨.illegalCommand, []⟩] := by decide
/-- A command placed where the step takes its next one is executed: `ENCRYPT` of 16 zero bytes before any `INIT` (E9). -/
theorem test_step_fetch_word :
    responsesOf (step (State.reset.withFetchWord 32 0x00001002)) = some [⟨.notInitialised, []⟩] := by decide

/-! ## Witnesses: for each obligation with hypotheses, operands and states that meet them -/

theorem witness_well_formed : (Instr.init 7 (zeros 63) (some (zeros 63))).wf = true ∧ (Instr.encrypt []).wf = true := by
  decide
/-- EncodeOfDecodeIsIdentity, DecodedCommandFitsItsTableRow. -/
theorem witness_decodes : decode ⟨0x000FFFF1, zeros 126⟩ = .ok (.init 7 (zeros 63) (some (zeros 63))) := by
  decide +kernel
/-- IllegalCommandForTheReservedEncodingsOnly: a state with a waiting command; each illegal clause at its boundary
(opcodes 0 and 9, reserved bit 20, IVLEN 1 without IV, reserved bit 4, reserved bit 4 of format Z, one byte too many);
and the legal clause at opcodes 1 and 8. -/
theorem witness_illegal_clauses :
    (∃ s : State, ∃ c rest, s.input = .command c :: rest) ∧
    (0x0 % 16 = 0 ∧ 9 ≤ 0x9 % 16 ∧ 0x00100001 / 2 ^ 20 ≠ 0 ∧ (0x00004001 / 2 ^ 7 % 2 = 0 ∧ 0x00004001 / 2 ^ 14 % 64 ≠ 0) ∧
      0x12 / 16 % 16 ≠ 0 ∧ 0x14 / 16 ≠ 0 ∧ (zeros 1).length ≠ 0) ∧
    decode ⟨0x00000001, []⟩ = .ok (.init 0 [] none) ∧ decode ⟨0x00000008, []⟩ = .ok .release :=
  ⟨⟨{ State.reset with input := [.command ⟨8, []⟩] }, _, _, rfl⟩, by decide, by decide, by decide⟩
/-- SpecExampleWordsDecode: payloads of every length it asks for. -/
theorem witness_payload_lengths :
    (zeros 16).length = 16 ∧ (zeros 24).length = 24 ∧ (zeros 32).length = 32 ∧ (zeros 64).length = 64 := by decide
/-- StepRunsTheDecodedCommand, FailedCommandsWriteNothing, OnlyInitReleaseAndResetWriteTheKey: a waiting command that
decodes, is no `INIT`, `RELEASE` or reset, and completes. -/
theorem witness_waiting_command : ∃ s t : State, ∃ rest,
    s.input = .command ⟨0x00000005, []⟩ :: rest ∧ decode ⟨0x00000005, []⟩ = .ok .getBlockSize ∧ step s = .next t :=
  ⟨{ State.reset with input := [.command ⟨0x00000005, []⟩] }, _, [], rfl, by decide, rfl⟩
theorem witness_idle : State.reset.input = [] := rfl
theorem witness_waiting_reset : ∃ s : State, ∃ rest, s.input = .reset :: rest :=
  ⟨{ State.reset with input := [.reset] }, [], rfl⟩
theorem witness_no_session : State.reset.session = Session.reset ∧ State.reset.session.configured = false := ⟨rfl, rfl⟩

/-- A session that meets the invariant (EveryStepKeepsTheInvariant, KeySizeIsLegal): AES-128 in CTR with `PARTIAL` set. -/
theorem witness_invariant :
    (coreWith { Session.construct .ctr (zeros 16) countingBlock with partialFlag := true }).Inv where
  session :=
    { noSession := fun h => absurd h (by decide)
      keyLength := fun _ => .inl rfl
      schedule := fun _ => by decide +kernel
      ecbChain := fun h => absurd h (by decide)
      partialMode := fun _ => .inr rfl }
  responses := fun r h => absurd h (by simp [coreWith, State.reset])
/-- EveryStepKeepsTheInvariant: that state takes a step, a query. -/
theorem witness_invariant_steps :
    (nextOf (step { coreWith (Session.construct .ctr (zeros 16) countingBlock) with
      input := [.command ⟨4, []⟩] })).isSome = true := by decide +kernel

/-- InitConstructsTheSession: ECB without IV, and CTR with the IV `000102...0f`. -/
theorem witness_init_ok : (0 : BitVec 3).toNat = Mode.ecb.code.toNat ∧ (zeros 16).length = 16 ∧
    (3 : BitVec 3).toNat = Mode.ctr.code.toNat ∧ Mode.ctr ≠ .ecb ∧
    some (counting 16) = some countingBlock.toBytes := by decide +kernel
/-- InitStoresTheKeySchedule: each clause at its boundary for the 16-byte key, words 3, 4, 43 and 44. -/
theorem witness_schedule_clauses :
    3 < 16 / 4 ∧ 16 / 4 ≤ 4 ∧ 43 < 4 * (16 / 4 + 7) ∧ 4 * (16 / 4 + 7) ≤ 44 ∧ 44 < 60 := by decide
/-- InitErrorsInPriorityOrder: key lengths 15 and 16, mode codes 4, 1 and 3, IV lengths 15 and none. -/
theorem witness_init_errors :
    (¬((zeros 15).length = 16 ∨ (zeros 15).length = 24 ∨ (zeros 15).length = 32)) ∧ (zeros 16).length = 16 ∧
    4 ≤ (4 : BitVec 3).toNat ∧ 1 ≤ (1 : BitVec 3).toNat ∧ (3 : BitVec 3).toNat ≤ 3 ∧ (zeros 15).length ≠ 16 := by decide
/-- InitStoresTheKeySchedule, RoundKeysDependOnTheKeyAlone: `INIT ECB` and `INIT CTR` with one key, both ending `OK`. -/
theorem witness_two_inits :
    responsesOf (exec (.init 0 (zeros 16) none) State.reset) = some [⟨.ok, []⟩] ∧
    responsesOf (exec (.init 3 (zeros 16) (some (counting 16))) (coreWith (sessionK .cbc countingBlock))) =
      some [⟨.ok, []⟩] := by decide +kernel
/-- QueriesCannotReadTheKey: two cores that differ in the round keys and in `PARTIAL` only. -/
theorem witness_two_keys : ∃ s s' : State, s ≠ s' ∧
    s' = { s with session := { s.session with rk := s'.session.rk, partialFlag := s'.session.partialFlag } } :=
  ⟨coreWith (Session.construct .ctr (zeros 16) Block.zero),
    coreWith { Session.construct .ctr (counting 16) Block.zero with partialFlag := true }, by decide +kernel, by
    decide +kernel⟩

/-- The data commands, all their hypotheses together: a session in each mode, with `PARTIAL` 0 and with `PARTIAL` 1; a
tail of 15 bytes and an empty one; a misaligned length for ECB and CBC; one byte for a continuation. -/
theorem witness_sessions (m : Mode) (p : Bool) :
    let s := coreWith { sessionK m Block.zero with partialFlag := p }
    s.session.configured = true ∧ s.session.mode = m ∧ s.session.partialFlag = p ∧
      (zeros 15).length < 16 ∧ zeros 15 ≠ [] ∧ (zeros 0).length < 16 ∧ zeros 0 = [] ∧
      (zeros 17).length % 16 ≠ 0 ∧ zeros 1 ≠ [] := ⟨rfl, rfl, rfl, by decide⟩
/-- PartialIsSetByAShortChunkOnly: a step that sets `PARTIAL`, and one that clears it. -/
theorem witness_partial_set_and_cleared :
    ((nextOf (step { coreWith (sessionK .ctr Block.zero) with input := [.command ⟨0x00000102, [0x6b]⟩] })).map
      (fun s => s.session.partialFlag)) = some true ∧
    ((nextOf (step { coreWith { sessionK .ctr Block.zero with partialFlag := true } with
      input := [.command ⟨0x00000008, []⟩] })).map (fun s => s.session.partialFlag)) = some false := by decide +kernel
/-- OnlyInitOpensASession: a step that opens a session, and one that ends it. -/
theorem witness_session_opened_and_ended :
    ((nextOf (step { State.reset with input := [.command ⟨0x00001001, zeros 16⟩] })).map
      (fun s => s.session.configured)) = some true ∧
    ((nextOf (step { coreWith (sessionK .ctr Block.zero) with input := [.reset] })).map
      (fun s => s.session.configured)) = some false := by decide +kernel
/-- OutputPayloadLengths, StatusesByCommand: an instruction that answers, with its response. -/
theorem witness_output_length : ∃ t, exec .getBlockSize State.reset = .next t ∧
    t.responses = State.reset.responses ++ [⟨.ok, [0x10]⟩] := ⟨_, rfl, rfl⟩
/-- DecryptUndoesEncryptOnAFreshSession: ECB with whole blocks, CTR with any bytes. -/
theorem witness_round_trip : (zeros 16).length = 16 ∧ ((0 : BitVec 3) = 0) ∧ (zeros 32).length % 16 = 0 ∧
    1 ≤ (3 : BitVec 3).toNat ∧ (3 : BitVec 3).toNat ≤ 3 ∧ (counting 16).length = 16 ∧ ¬(3 : BitVec 3).toNat ≤ 1 := by
  decide
/-- SplittingDataAtABlockBoundaryChangesNothing: 16 bytes and then 5 in CTR; 16 and 16 in CBC. -/
theorem witness_split : (sessionK .ctr Block.zero).accepts (16 + 5) ∧ (sessionK .cbc Block.zero).accepts (16 + 16) ∧
    (sessionK .ctr Block.zero).configured = true ∧ (zeros 16).length % 16 = 0 := ⟨.inl rfl, rfl, rfl, by decide⟩
/-- CtrRepeatedBlocksGiveDistinctBlocks: two blocks, and the largest number of them. -/
theorem witness_repeated_blocks : 2 ≤ 2 ^ 128 ∧ (sessionK .ctr Block.zero).mode = .ctr := by decide
theorem witness_nonzero_byte : (0x01 : Byte) ≠ 0x00 := by decide
theorem witness_round_number : 14 < 15 := by decide
/-- CiphersRunTheirRounds: each number of rounds, and a round at each end of its range. -/
theorem witness_rounds : (10 = 10 ∨ 10 = 12 ∨ 10 = 14) ∧ 1 ≤ 1 ∧ 1 < 10 ∧ 13 < 14 ∧
    (Session.construct .ecb (zeros 16) Block.zero).klen = 16 ∧ (Session.construct .ecb (zeros 24) Block.zero).klen = 24 ∧
    (Session.construct .ecb (zeros 32) Block.zero).klen = 32 := by decide +kernel
/-- TablesSubstituteEachByte: the block of R105's example, and the first and last index of the `Rcon` clause. -/
theorem witness_tables : countingBlock.toBytes = bytesOfHex 16 0x000102030405060708090a0b0c0d0e0f ∧ 1 ≤ 1 ∧ 9 < 10 := by
  decide +kernel
/-- EqualBlocksOfACtrSessionGiveDistinctBlocks: a CTR session with two commands waiting that share a block. -/
theorem witness_ctr_session :
    let payloads := [[countingBlock, Block.zero], [countingBlock]]
    let s : State := { coreWith (sessionK .ctr Block.zero) with
      input := payloads.map fun X => .command (encode (.encrypt (joinBlocks X))) }
    s.session.configured = true ∧ s.session.mode = .ctr ∧ s.session.partialFlag = false ∧
      s.input = payloads.map (fun X => .command (encode (.encrypt (joinBlocks X)))) ∧
      (∀ X ∈ payloads, 16 * X.length < 2 ^ 24) ∧ payloads.flatten.length ≤ 2 ^ 128 ∧
      payloads.flatten[0]? = payloads.flatten[2]? := ⟨rfl, rfl, rfl, rfl, by simp, by simp, rfl⟩
theorem witness_two_cores : (1 : Fin 2) ≠ 0 := by decide
/-- InterleavingsKeepEachHostsOrder: two hosts with one event each, taken in the second host's order first. -/
theorem witness_interleaving : Interleaving [[.reset], [.command ⟨8, []⟩]] [.command ⟨8, []⟩, .reset] :=
  .take _ 1 _ [] _ rfl (.take _ 0 _ [] _ rfl (.done _ (by decide)))

end Sys2Proof.Tests
end

section
/-! The session registers and the steps that write them (10_state.md): the step lemma by which every statement of this
family follows, and the statements. -/

namespace Sys2Proof.Machine

/-! ## What a step does to the session -/

/-- The data command of one direction (R166, R167). -/
def Dir.instr : Dir → List Byte → Instr
  | .enc, data => .encrypt data
  | .dec, data => .decrypt data

theorem exec_dirInstr (dir : Dir) (data : List Byte) (s : State) :
    exec (dir.instr data) s = dataCommand dir data s := by
  cases dir <;> rfl

theorem exec_getIv (s : State) : exec .getIv s = sessionQuery (fun r => r.chain.toBytes) s := rfl

theorem exec_getKeySize (s : State) : exec .getKeySize s = sessionQuery (fun r => [r.klen.setWidth 8]) s := rfl

theorem exec_getMode (s : State) : exec .getMode s = sessionQuery (fun r => [r.mode.code.setWidth 8]) s := rfl

/-- The four ways a step can treat the session registers, each with the event that does it. -/
inductive SessionStep (s t : State) : Prop
  /-- No register is written. -/
  | kept (hsession : t.session = s.session)
  /-- A reset or a `RELEASE` (R172, R220). -/
  | cleared
      (hevent : s.input.head? = some .reset ∨ ∃ c rest, s.input = .command c :: rest ∧ decode c = .ok .release)
      (hsession : t.session = Session.reset)
  /-- An `INIT` whose checks pass (R160). -/
  | constructed {c rest mode key iv m chain} (hinput : s.input = .command c :: rest)
      (hdecode : decode c = .ok (.init mode key iv)) (hcheck : checkInit mode key iv = .ok (m, chain))
      (hresponses : t.responses = s.responses ++ [⟨.ok, []⟩])
      (hsession : t.session = Session.construct m key chain)
  /-- A data command whose checks pass (R166, R167). -/
  | advanced {c rest dir data} (hinput : s.input = .command c :: rest) (hdecode : decode c = .ok (dir.instr data))
      (hstatus : dataStatus s.session data.length = .ok)
      (hsession : t.session = s.session.advance (runEngine dir s.session data))

theorem sessionQuery_session {out : Session → List Byte} {s t : State} (h : sessionQuery out s = .next t) :
    t.session = s.session := by
  rw [sessionQuery_eq] at h
  split at h <;> cases h <;> rfl

theorem dataCommand_session {dir : Dir} {data : List Byte} {s t : State} (h : dataCommand dir data s = .next t) :
    t.session = s.session ∨ dataStatus s.session data.length = .ok ∧
      t.session = s.session.advance (runEngine dir s.session data) := by
  by_cases hst : dataStatus s.session data.length = .ok
  · cases (dataCommand_ok hst).symm.trans h
    exact .inr ⟨hst, rfl⟩
  · cases (dataCommand_error hst).symm.trans h
    exact .inl rfl

theorem execInit_session {mode : BitVec 3} {key : List Byte} {iv : Option (List Byte)} {s t : State}
    (h : execInit mode key iv s = .next t) :
    t.session = s.session ∨ ∃ m chain, checkInit mode key iv = .ok (m, chain) ∧
      t.responses = s.responses ++ [⟨.ok, []⟩] ∧ t.session = Session.construct m key chain := by
  unfold execInit at h
  split at h
  · cases h; exact .inl rfl
  · rename_i hcheck
    cases h; exact .inr ⟨_, _, hcheck, rfl, rfl⟩

/-- An instruction that the next event decodes to, executed. -/
theorem sessionStep_of_exec {s t : State} {c : Command} {rest : List Event} {i : Instr}
    (hinput : s.input = .command c :: rest) (hdecode : decode c = .ok i)
    (h : exec i { s with input := rest } = .next t) : SessionStep s t := by
  have data {dir d} (hi : decode c = .ok (Dir.instr dir d))
      (hd : exec (dir.instr d) { s with input := rest } = .next t) : SessionStep s t := by
    rw [exec_dirInstr] at hd
    rcases dataCommand_session hd with hk | ⟨hst, hses⟩
    · exact .kept hk
    · exact .advanced hinput hi hst hses
  have query {out} (hq : sessionQuery out { s with input := rest } = .next t) : SessionStep s t :=
    .kept (sessionQuery_session hq :)
  cases i with
  | init mode key iv =>
    rcases execInit_session h with hk | ⟨m, chain, hcheck, hresp, hses⟩
    · exact .kept hk
    · exact .constructed hinput hdecode hcheck hresp hses
  | encrypt d => exact data (dir := .enc) hdecode h
  | decrypt d => exact data (dir := .dec) hdecode h
  | getIv => exact query ((exec_getIv _).symm.trans h)
  | getBlockSize => cases h; exact .kept rfl
  | getKeySize => exact query ((exec_getKeySize _).symm.trans h)
  | getMode => exact query ((exec_getMode _).symm.trans h)
  | release => cases h; exact .cleared (.inr ⟨c, rest, hinput, hdecode⟩) rfl

theorem step_sessionStep {s t : State} (h : step s = .next t) : SessionStep s t := by
  rcases step_cases s with ⟨-, hs⟩ | ⟨rest, hin, hs⟩ | ⟨c, rest, i, hin, hdec, hs⟩ | ⟨c, rest, e, -, -, hs⟩
  · cases hs.symm.trans h; exact .kept rfl
  · cases hs.symm.trans h; exact .cleared (.inl (by simp [hin])) rfl
  · exact sessionStep_of_exec hin hdec (hs.symm.trans h)
  · cases hs.symm.trans h; exact .kept rfl

/-- R199: a step always answers a next state. -/
theorem exists_step_eq_next (s : State) : ∃ t, step s = .next t := by
  rcases step_cases s with ⟨-, hs⟩ | ⟨_, -, hs⟩ | ⟨_, rest, i, -, -, hs⟩ | ⟨_, _, _, -, -, hs⟩
  · exact ⟨_, hs⟩
  · exact ⟨_, hs⟩
  · obtain ⟨t, _, ht, -⟩ := exec_cases i { s with input := rest }
    exact ⟨t, hs.trans ht⟩
  · exact ⟨_, hs⟩

/-- R41: a step adds no response, or one whose output is empty unless its status is `OK`. -/
theorem step_responses {s t : State} (h : step s = .next t) :
    t.responses = s.responses ∨ ∃ r, t.responses = s.responses ++ [r] ∧ (r.status ≠ .ok → r.out = []) := by
  rcases step_cases s with ⟨-, hs⟩ | ⟨_, -, hs⟩ | ⟨_, rest, i, -, -, hs⟩ | ⟨_, _, _, -, -, hs⟩
  · cases hs.symm.trans h; exact .inl rfl
  · cases hs.symm.trans h; exact .inl rfl
  · obtain ⟨t', r, ht, -, hresp, hr⟩ := exec_cases i { s with input := rest }
    cases (hs.trans ht).symm.trans h
    exact .inr ⟨r, hresp, fun hne => (hr hne).2⟩
  · cases hs.symm.trans h; exact .inr ⟨_, rfl, fun _ => rfl⟩

/-! ## The invariant -/

theorem sessionReset_inv : Session.reset.Inv where
  noSession _ := rfl
  keyLength h := nomatch h
  schedule h := nomatch h
  ecbChain _ := rfl
  partialMode h := nomatch h

/-- R91: the schedule starts with the words it is expanded from. -/
theorem take_expandWords (nk : Nat) (w : List Word) : (expandWords nk w).take w.length = w := by
  apply List.ext_getElem?
  intro i
  by_cases hi : i < w.length
  · rw [List.getElem?_take_of_lt hi, expandWords, expandLoop_getElem? _ _ _ hi]
  · rw [List.getElem?_eq_none (by simp; omega), List.getElem?_eq_none (by omega)]

/-- R93: the file holds a schedule's words first. -/
theorem storeSchedule_toList_take {w : List Word} {n : Nat} (hn : n ≤ 60) (hw : n ≤ w.length) :
    (storeSchedule w).toList.take n = w.take n := by
  apply List.ext_getElem (by simp; omega)
  intro i hi _
  simp only [List.length_take] at hi
  simp [storeSchedule_getElem, show i < w.length by omega]

/-- R25: a legal key length survives the 6-bit `KLEN` register. -/
theorem construct_nk {m : Mode} {key : List Byte} {chain : Block}
    (h : key.length = 16 ∨ key.length = 24 ∨ key.length = 32) :
    (Session.construct m key chain).nk = key.length / 4 := by
  rw [Session.nk, nkOfKlen, construct_klen, BitVec.toNat_ofNat, Nat.mod_eq_of_lt (by omega)]

/-- R28: the file of a new session starts with its key. -/
theorem construct_keyWords {m : Mode} {key : List Byte} {chain : Block}
    (h : key.length = 16 ∨ key.length = 24 ∨ key.length = 32) :
    (Session.construct m key chain).keyWords = keyWords key := by
  have hlen : (keyWords key).length = key.length / 4 := keyWords_length _ key (by omega)
  have hexp := keyExpansion_length h
  simp only [scheduleLength, roundsOf] at hexp
  rw [Session.keyWords, construct_nk h, construct_rk, storeSchedule_toList_take (by omega) (by omega), ← hlen]
  exact take_expandWords _ _

theorem legalKeyLength_iff {n : Nat} : legalKeyLength n = true ↔ n = 16 ∨ n = 24 ∨ n = 32 := by
  simp [legalKeyLength, or_assoc]

/-- The session that a passing `INIT` constructs. -/
theorem construct_inv {mode : BitVec 3} {key : List Byte} {iv : Option (List Byte)} {m : Mode} {chain : Block}
    (h : checkInit mode key iv = .ok (m, chain)) : (Session.construct m key chain).Inv := by
  obtain ⟨hkey, -, hchain⟩ := checkInit_ok_iff.mp h
  rw [legalKeyLength_iff] at hkey
  exact {
    noSession := nofun
    keyLength := fun _ => by rcases hkey with hk | hk | hk <;> simp [hk]
    schedule := fun _ => by rw [construct_nk hkey, construct_keyWords hkey]; rfl
    ecbChain := fun hm => by
      rcases initialChain_ok_iff.mp hchain with ⟨-, hzero⟩ | ⟨hne, -⟩
      · exact hzero
      · exact absurd hm hne
    partialMode := nofun }

/-- A data command that ends `OK` found a session. -/
theorem configured_of_dataStatus_ok {r : Session} {n : Nat} (h : dataStatus r n = .ok) : r.configured = true := by
  by_contra hc
  simp [dataStatus_notInitialised (Bool.eq_false_iff.mpr hc)] at h

/-- The session a passing data command leaves. -/
theorem advance_inv {r : Session} (hr : r.Inv) {data : List Byte} (h : dataStatus r data.length = .ok) (dir : Dir) :
    (r.advance (runEngine dir r data)).Inv where
  noSession hc := by simp [configured_of_dataStatus_ok h] at hc
  keyLength := hr.keyLength
  schedule := hr.schedule
  ecbChain (hm : r.mode = .ecb) := by rw [advance_chain, runEngine_chain_ecb hm, hr.ecbChain hm]
  partialMode hp := by
    rw [advance_partialFlag, runEngine_partialFlag] at hp
    split at hp
    · rename_i hshort; exact hshort.1
    · exact hr.partialMode hp

theorem sessionStep_inv {s t : State} (h : SessionStep s t) (hs : s.session.Inv) : t.session.Inv := by
  cases h with
  | kept hses => exact hses ▸ hs
  | cleared _ hses => exact hses ▸ sessionReset_inv
  | constructed _ _ hcheck _ hses => exact hses ▸ construct_inv hcheck
  | advanced _ _ hst hses => exact hses ▸ advance_inv hs hst _

/-- Settles O14: the session by the four ways a step can treat it, the responses by the one a step may add. -/
theorem everyStepKeepsTheInvariant : Obligations.EveryStepKeepsTheInvariant := by
  rintro s t ⟨hses, hold⟩ h
  refine ⟨sessionStep_inv (step_sessionStep h) hses, ?_⟩
  rcases step_responses h with hsame | ⟨r, hadd, hr⟩
  · exact hsame ▸ hold
  · rw [hadd]
    simpa [or_imp, forall_and] using ⟨hold, hr⟩

/-- Settles O13: no session and no response. -/
theorem resetMeetsTheInvariant : Obligations.ResetMeetsTheInvariant := ⟨sessionReset_inv, nofun⟩

/-! ## Which events write which registers -/

/-- Settles O15: the excluded events are those that clear or construct a session, and a data command only advances it. -/
theorem onlyInitReleaseAndResetWriteTheKey : Obligations.OnlyInitReleaseAndResetWriteTheKey := by
  intro s t h hreset hcmd
  cases step_sessionStep h with
  | kept hses => rw [hses]
  | cleared hev _ =>
    rcases hev with hev | ⟨c, rest, hin, hdec⟩
    · exact absurd hev hreset
    · exact absurd rfl (hcmd c _ (by simp [hin]) hdec).1
  | constructed hin hdec _ _ _ => exact absurd rfl ((hcmd _ _ (by simp [hin]) hdec).2 _ _ _)
  | advanced _ _ _ hses => rw [hses]; rfl

/-- Settles O16: only a constructed session is new, and only a cleared one is gone. -/
theorem onlyInitOpensASession : Obligations.OnlyInitOpensASession := by
  intro s t h
  cases step_sessionStep h with
  | kept hses => simp +contextual [hses]
  | cleared hev hses => exact ⟨by simp [hses, Session.reset], fun _ _ => hev⟩
  | constructed hin hdec _ hresp hses =>
    exact ⟨fun _ _ => ⟨_, _, _, _, _, hin, hdec, hresp⟩, by simp [hses]⟩
  | advanced _ _ _ hses => simp +contextual [hses]

/-- R31: a data command on a CFB or CTR session without a partial chunk before it ends `OK`, and sets `PARTIAL` if its
length is not a multiple of 16. -/
theorem dataInstr_stream_partialFlag {s : State} (hc : s.session.configured = true)
    (hp : s.session.partialFlag = false) (hm : s.session.mode = .cfb ∨ s.session.mode = .ctr) (dir : Dir)
    (data : List Byte) :
    ∃ t out, exec (dir.instr data) s = .next t ∧ t.responses = s.responses ++ [⟨.ok, out⟩] ∧
      (t.session.partialFlag = true ↔ data.length % 16 ≠ 0) := by
  have hst : dataStatus s.session data.length = .ok := by
    rw [dataStatus_ok_iff hc]
    exact ⟨fun h => by rcases hm with hm | hm <;> simp [hm] at h, fun _ => .inl hp⟩
  exact ⟨_, _, (exec_dirInstr ..).trans (dataCommand_ok hst), rfl, by simp [runEngine_partialFlag, hm, hp]⟩

theorem encrypt_or_decrypt_of_decode {c : Command} {dir : Dir} {data : List Byte} (h : decode c = .ok (dir.instr data)) :
    decode c = .ok (.encrypt data) ∨ decode c = .ok (.decrypt data) := by
  cases dir with
  | enc => exact .inl h
  | dec => exact .inr h

theorem partialFlag_set_by {s t : State} (h : SessionStep s t) (hs : s.session.partialFlag = false)
    (ht : t.session.partialFlag = true) :
    (s.session.mode = .cfb ∨ s.session.mode = .ctr) ∧ ∃ c rest data, s.input = .command c :: rest ∧
      data.length % 16 ≠ 0 ∧ (decode c = .ok (.encrypt data) ∨ decode c = .ok (.decrypt data)) := by
  cases h with
  | kept hses => simp [hses, hs] at ht
  | cleared _ hses => simp [hses, Session.reset] at ht
  | constructed _ _ _ _ hses => simp [hses] at ht
  | advanced hin hdec _ hses =>
    rw [hses, advance_partialFlag, runEngine_partialFlag, hs] at ht
    obtain ⟨hm, hlen⟩ : (s.session.mode = .cfb ∨ s.session.mode = .ctr) ∧ _ := by simpa using ht
    exact ⟨hm, _, _, _, hin, hlen, encrypt_or_decrypt_of_decode hdec⟩

theorem partialFlag_cleared_by {s t : State} (h : SessionStep s t) (hs : s.session.partialFlag = true)
    (ht : t.session.partialFlag = false) :
    s.input.head? = some .reset ∨ ∃ c rest, s.input = .command c :: rest ∧
      (decode c = .ok .release ∨ ∃ mode key iv, decode c = .ok (.init mode key iv)) := by
  cases h with
  | kept hses => simp [hses, hs] at ht
  | cleared hev _ => exact hev.imp_right fun ⟨c, rest, hin, hdec⟩ => ⟨c, rest, hin, .inl hdec⟩
  | constructed hin hdec _ _ _ => exact .inr ⟨_, _, hin, .inr ⟨_, _, _, hdec⟩⟩
  | advanced _ _ _ hses => simp [hses, runEngine_partialFlag, hs] at ht

/-- Settles O39: only a short chunk of an advanced CFB or CTR session sets the flag, and only a new or cleared session
lacks one that was set. -/
theorem partialIsSetByAShortChunkOnly : Obligations.PartialIsSetByAShortChunkOnly := by
  refine ⟨fun s data hc hp hm i hi => ?_, fun s t h => partialFlag_set_by (step_sessionStep h),
    fun s t h => partialFlag_cleared_by (step_sessionStep h)⟩
  obtain rfl | rfl : i = .encrypt data ∨ i = .decrypt data := by simpa using hi
  · exact dataInstr_stream_partialFlag hc hp hm .enc data
  · exact dataInstr_stream_partialFlag hc hp hm .dec data

/-! ## One step of one core -/

theorem stepCore_eq {n : Nat} {p : Platform n} {i : Fin n} {t : State} (h : step (p.cores.get i) = .next t) :
    stepCore p i = .next ⟨p.cores.set i.val t i.isLt⟩ := by
  simp only [stepCore, h]

/-- Settles O52: the core's own step answers a next state, and only its place in the platform is written. -/
theorem coresShareNoState : Obligations.CoresShareNoState := by
  intro n p i
  obtain ⟨t, ht⟩ := exists_step_eq_next (p.cores.get i)
  refine ⟨_, stepCore_eq ht, ?_, fun j hj => ?_⟩
  · rw [ht]; simp [Vector.get_eq_getElem]
  · have hne : i.val ≠ j.val := fun h => hj (Fin.ext h.symm)
    simp [Vector.get_eq_getElem, Vector.getElem_set_ne, hne]

/-- Settles O6: the event at the head of the port is the one the step takes. -/
theorem stepRunsTheDecodedCommand : Obligations.StepRunsTheDecodedCommand := by
  intro s c rest i hin hdec
  simp [step, State.takeEvent, hin, hdec]

/-- Settles O7: there is no event to take. -/
theorem idleCoreChangesNothing : Obligations.IdleCoreChangesNothing := by
  intro s hin
  simp [step, State.takeEvent, hin]

/-! ## The queries -/

/-- A query of the session answers two cores alike when what it reads is the same in both. -/
theorem sessionQuery_congr {out : Session → List Byte} {s s' : State} (hresp : s.responses = s'.responses)
    (hc : s.session.configured = s'.session.configured) (hout : out s.session = out s'.session) :
    ∃ t t', sessionQuery out s = .next t ∧ sessionQuery out s' = .next t' ∧ t.responses = t'.responses := by
  rw [sessionQuery_eq, sessionQuery_eq, hresp, hc, hout]
  split <;> exact ⟨_, _, rfl, rfl, rfl⟩

/-- Settles O27: the registers a query reads are all among those the two cores agree on. -/
theorem queriesCannotReadTheKey : Obligations.QueriesCannotReadTheKey := by
  intro s s' i hi heq
  have hresp : s.responses = s'.responses := by rw [heq]
  have hc : s.session.configured = s'.session.configured := by rw [heq]
  have hmode : s.session.mode = s'.session.mode := by rw [heq]
  have hklen : s.session.klen = s'.session.klen := by rw [heq]
  have hchain : s.session.chain = s'.session.chain := by rw [heq]
  simp only [List.mem_cons, List.not_mem_nil, or_false] at hi
  rcases hi with rfl | rfl | rfl | rfl
  · rw [exec_getIv, exec_getIv]
    exact sessionQuery_congr hresp hc (by simp only [hchain])
  · exact ⟨_, _, rfl, rfl, by simp [hresp]⟩
  · rw [exec_getKeySize, exec_getKeySize]
    exact sessionQuery_congr hresp hc (by simp only [hklen])
  · rw [exec_getMode, exec_getMode]
    exact sessionQuery_congr hresp hc (by simp only [hmode])

end Sys2Proof.Machine
end

section
/-! The host port, the payload and its blocks, and the orders of several hosts (20_memory.md): one lemma each for the
event a step takes, the weight of a byte and the first event of an admitted order, and the statements. -/

namespace Sys2Proof

/-! ## Bytes and blocks -/

/-- R30: the first byte is the most significant. -/
theorem bytesToNat_cons (b : Byte) (l : List Byte) :
    bytesToNat (b :: l) = b.toNat * 256 ^ l.length + bytesToNat l := by
  induction l using List.reverseRecOn with
  | nil => simp [bytesToNat]
  | append_singleton l c ih =>
    rw [← List.cons_append, bytesToNat_append_singleton, bytesToNat_append_singleton, ih, List.length_append,
      List.length_singleton, Nat.pow_succ]
    ring

/-- R30: byte `i` of `n` weighs `2^(8*(n-1-i))`. -/
theorem bytesToNat_eq_sum (l : List Byte) : bytesToNat l =
    ((List.range l.length).map fun i => (l.getD i 0).toNat * 2 ^ (8 * (l.length - 1 - i))).sum := by
  induction l with
  | nil => rfl
  | cons b l ih =>
    have hpow : 2 ^ (8 * l.length) = 256 ^ l.length := Nat.pow_mul 2 8 l.length
    have hexp (i : Nat) : l.length - 1 - i = l.length - (i + 1) := by omega
    simp [bytesToNat_cons, ih, List.range_succ_eq_map, Function.comp_def, hexp, hpow]

/-- R43: byte `r + 4*c` of a block is row `r` of column `c`. -/
theorem Block.toBytes_getElem? (s : Block) (r c : Fin 4) : s.toBytes[r.val + 4 * c.val]? = some (s.get r c) := by
  fin_cases c <;> fin_cases r <;> rfl

/-- R43: no other length than 16 is a block. -/
theorem Block.ofBytes?_eq_none {l : List Byte} (h : l.length ≠ 16) : Block.ofBytes? l = none := by
  by_contra hsome
  obtain ⟨s, hs⟩ := Option.ne_none_iff_exists'.mp hsome
  exact h (by rw [← Block.toBytes_of_ofBytes? hs, Block.toBytes_length])

/-- Settles O50: the bytes by position, and the counter as the weighted sum of its sixteen bytes. -/
theorem blockBytesAreColumnMajorBigEndian : Obligations.BlockBytesAreColumnMajorBigEndian := fun s =>
  ⟨s.toBytes_length, s.toBytes_getElem?, s.ofBytes?_toBytes, fun _ => Block.ofBytes?_eq_none,
    bytesToNat_eq_sum s.toBytes⟩

end Sys2Proof

namespace Sys2Proof.Machine

/-- Settles O28: the split of the payload, which finds any other such split too. -/
theorem everyPayloadIsItsBlocksAndATail : Obligations.EveryPayloadIsItsBlocksAndATail := by
  intro data
  obtain ⟨hjoin, hshort⟩ := joinBlocks_splitBlocks data
  refine ⟨_, _, hjoin.symm, hshort, splitBlocks_tail_length data, fun X' T' hdata hT' => ?_⟩
  simp [hdata, hT']

/-! ## The waiting events -/

theorem commandCount_cons (e : Event) (rest : List Event) :
    commandCount (e :: rest) = commandCount [e] + commandCount rest :=
  List.countP_append (l₁ := [e])

/-- R50, R190: a step takes the first waiting event and answers it once if it is a command, and not if it is a reset. -/
theorem step_takes_event {s : State} {e : Event} {rest : List Event} (hin : s.input = e :: rest) :
    ∃ t rs, step s = .next t ∧ t.input = rest ∧ t.responses = s.responses ++ rs ∧ rs.length = commandCount [e] := by
  rcases step_cases s with ⟨hnil, -⟩ | ⟨rest', hin', hs⟩ | ⟨c, rest', i, hin', -, hs⟩ | ⟨c, rest', _, hin', -, hs⟩
  · cases hnil.symm.trans hin
  · cases hin'.symm.trans hin
    exact ⟨_, [], hs, rfl, (List.append_nil _).symm, rfl⟩
  · cases hin'.symm.trans hin
    obtain ⟨t, r, ht, hinput, hresp, -⟩ := exec_cases i { s with input := rest }
    exact ⟨t, [r], hs.trans ht, hinput, hresp, rfl⟩
  · cases hin'.symm.trans hin
    exact ⟨_, [_], hs, rfl, rfl, rfl⟩

theorem run_takes_events (es : List Event) : ∀ s : State, s.input = es →
    ∃ t rs, run es.length s = .next t ∧ t.input = [] ∧ t.responses = s.responses ++ rs ∧
      rs.length = commandCount es := by
  induction es with
  | nil => exact fun s hin => ⟨s, [], run_zero s, hin, (List.append_nil _).symm, rfl⟩
  | cons e es ih =>
    intro s hin
    obtain ⟨s', rs, hstep, hin', hresp, hlen⟩ := step_takes_event hin
    obtain ⟨t, rs', hrun, hdone, hresp', hlen'⟩ := ih s' hin'
    refine ⟨t, rs ++ rs', (run_succ hstep).trans hrun, hdone, ?_, ?_⟩
    · rw [hresp', hresp, List.append_assoc]
    · rw [List.length_append, hlen, hlen', ← commandCount_cons]

/-- Settles O9, by induction on the waiting events. -/
theorem everyIssuedCommandIsAnswered : Obligations.EveryIssuedCommandIsAnswered :=
  fun s => run_takes_events s.input s rfl

/-! ## The orders of several hosts -/

/-- The events of an order at the positions given to host `k`, in order. -/
def eventsOwnedBy (owners : List Nat) (order : List Event) (k : Nat) : List Event :=
  ((owners.zip order).filter fun p => p.1 == k).map Prod.snd

@[simp] theorem eventsOwnedBy_nil (k : Nat) : eventsOwnedBy [] [] k = [] := rfl

@[simp] theorem eventsOwnedBy_cons (j : Nat) (owners : List Nat) (e : Event) (order : List Event) (k : Nat) :
    eventsOwnedBy (j :: owners) (e :: order) k =
      if j = k then e :: eventsOwnedBy owners order k else eventsOwnedBy owners order k := by
  by_cases h : j = k <;> simp [eventsOwnedBy, h]

theorem eventsOwnedBy_sublist {owners : List Nat} {order : List Event} (h : owners.length = order.length) (k : Nat) :
    (eventsOwnedBy owners order k).Sublist order := by
  have hall : (owners.zip order).map Prod.snd = order := List.map_snd_zip h.ge
  have hsub := (List.filter_sublist (p := fun p => p.1 == k) (l := owners.zip order)).map Prod.snd
  rwa [hall] at hsub

/-- R56: every position of an order is given to one host so that each host's positions are what that host issues. -/
structure KeepsHostOrders (hosts : List (List Event)) (order : List Event) (owners : List Nat) : Prop where
  length : owners.length = order.length
  owner_lt : ∀ k ∈ owners, k < hosts.length
  events : ∀ (k : Nat) (q : List Event), hosts[k]? = some q → eventsOwnedBy owners order k = q

theorem keepsHostOrders_iff {hosts : List (List Event)} {order : List Event} {owners : List Nat} :
    KeepsHostOrders hosts order owners ↔ owners.length = order.length ∧ (∀ k ∈ owners, k < hosts.length) ∧
      ∀ (k : Nat) (q : List Event), hosts[k]? = some q → eventsOwnedBy owners order k = q :=
  ⟨fun ⟨hlen, hlt, hev⟩ => ⟨hlen, hlt, hev⟩, fun ⟨hlen, hlt, hev⟩ => ⟨hlen, hlt, hev⟩⟩

theorem keepsHostOrders_nil_iff {hosts : List (List Event)} :
    KeepsHostOrders hosts [] [] ↔ ∀ q ∈ hosts, q = [] := by
  constructor
  · intro h q hq
    obtain ⟨k, hk⟩ := List.mem_iff_getElem?.mp hq
    exact (h.events k q hk).symm
  · exact fun h => ⟨rfl, nofun, fun k q hk => (h q (List.mem_of_getElem? hk)).symm⟩

/-- The first event of an order comes from its owner's head, and the rest keeps what the hosts issue without it. -/
theorem keepsHostOrders_cons_iff {hosts : List (List Event)} {e : Event} {order : List Event} {k : Nat}
    {owners : List Nat} : KeepsHostOrders hosts (e :: order) (k :: owners) ↔
      ∃ rest, hosts[k]? = some (e :: rest) ∧ KeepsHostOrders (hosts.set k rest) order owners := by
  constructor
  · rintro ⟨hlen, hlt, hev⟩
    have hk : k < hosts.length := hlt k List.mem_cons_self
    have hhead := hev k _ (List.getElem?_eq_getElem hk)
    rw [eventsOwnedBy_cons, if_pos rfl] at hhead
    refine ⟨eventsOwnedBy owners order k, by rw [hhead, List.getElem?_eq_getElem hk], Nat.succ.inj hlen,
      fun j hj => by simpa using hlt j (List.mem_cons_of_mem k hj), fun j q hj => ?_⟩
    by_cases hkj : k = j
    · subst hkj
      simpa [hk] using hj
    · rw [List.getElem?_set_ne hkj] at hj
      simpa [hkj] using hev j q hj
  · rintro ⟨rest, hhead, hlen, hlt, hev⟩
    have hk : k < hosts.length := (List.getElem?_eq_some_iff.mp hhead).1
    have hrest := hev k rest (by simp [hk])
    refine ⟨congrArg Nat.succ hlen, by simpa [hk] using hlt, fun j q hj => ?_⟩
    by_cases hkj : k = j
    · subst hkj
      simpa [hrest] using hhead.symm.trans hj
    · simpa [hkj] using hev j q (by rwa [List.getElem?_set_ne hkj])

theorem interleaving_iff_exists_owners {order : List Event} :
    ∀ {hosts : List (List Event)}, Interleaving hosts order ↔ ∃ owners, KeepsHostOrders hosts order owners := by
  induction order with
  | nil =>
    refine fun {hosts} => ⟨fun h => ?_, fun ⟨owners, h⟩ => ?_⟩
    · cases h with
      | done _ hdone => exact ⟨[], keepsHostOrders_nil_iff.mpr hdone⟩
    · obtain rfl := List.length_eq_zero_iff.mp h.length
      exact .done _ (keepsHostOrders_nil_iff.mp h)
  | cons e order ih =>
    refine fun {hosts} => ⟨fun h => ?_, fun ⟨owners, h⟩ => ?_⟩
    · cases h with
      | take _ k _ rest _ hhead next =>
        obtain ⟨owners, hnext⟩ := ih.mp next
        exact ⟨k :: owners, keepsHostOrders_cons_iff.mpr ⟨rest, hhead, hnext⟩⟩
    · obtain ⟨k, owners, rfl⟩ := List.exists_cons_of_length_eq_add_one h.length
      obtain ⟨rest, hhead, hnext⟩ := keepsHostOrders_cons_iff.mp h
      exact .take _ k _ rest _ hhead (ih.mpr ⟨owners, hnext⟩)

theorem flatten_set_perm {e : Event} {rest : List Event} {hosts : List (List Event)} {k : Nat}
    (h : hosts[k]? = some (e :: rest)) : hosts.flatten.Perm (e :: (hosts.set k rest).flatten) := by
  obtain ⟨hk, hget⟩ := List.getElem?_eq_some_iff.mp h
  have hsplit : hosts = hosts.take k ++ (e :: rest) :: hosts.drop (k + 1) := by
    rw [← hget, List.cons_getElem_drop_succ, List.take_append_drop]
  rw [List.set_eq_take_append_cons_drop, if_pos hk]
  conv_lhs => rw [hsplit]
  simp

/-- R56: an admitted order holds every event once. -/
theorem interleaving_perm_flatten {hosts : List (List Event)} {order : List Event} (h : Interleaving hosts order) :
    order.Perm hosts.flatten := by
  induction h with
  | done hosts hdone => rw [List.flatten_eq_nil_iff.mpr hdone]
  | take hosts k e rest order hhead _ ih => exact (ih.cons e).trans (flatten_set_perm hhead).symm

/-- Settles O53: the owners of an admitted order are the hosts its events are taken from, and the events of one owner
are a sublist of it. -/
theorem interleavingsKeepEachHostsOrder : Obligations.InterleavingsKeepEachHostsOrder := by
  intro hosts order
  refine ⟨interleaving_iff_exists_owners.trans (exists_congr fun _ => keepsHostOrders_iff), fun h =>
    ⟨interleaving_perm_flatten h, fun q hq => ?_⟩⟩
  obtain ⟨owners, howners⟩ := interleaving_iff_exists_owners.mp h
  obtain ⟨k, hk⟩ := List.mem_iff_getElem?.mp hq
  exact howners.events k q hk ▸ eventsOwnedBy_sublist howners.length k

end Sys2Proof.Machine
end

section
/-! The encoding (30_encoding.md): what each arm of the decoder accepts and how the fields of a word make it up, from
which the round trip follows both ways; then the table, the example words, the answers of decoded commands and the
commands that are illegal. -/

namespace Sys2Proof

open Sys2Proof.Machine

/-! ## Well-formed instructions and their encodings, by format -/

theorem wf_init_iff {mode : BitVec 3} {key : List Byte} {iv : Option (List Byte)} :
    (Instr.init mode key iv).wf = true ↔ key.length < 64 ∧ ∀ v, iv = some v → v.length < 64 := by
  cases iv <;> simp [Instr.wf, ivFits]

theorem wf_dirInstr_iff {dir : Dir} {data : List Byte} : (dir.instr data).wf = true ↔ data.length < 2 ^ 24 := by
  cases dir <;> exact decide_eq_true_iff

theorem encode_dirInstr (dir : Dir) (data : List Byte) :
    encode (dir.instr data) = ⟨encodeWordD (BitVec.ofNat 24 data.length) (dir.instr data).opcode, data⟩ := by
  cases dir <;> rfl

/-- The instructions of format Z (R65): they have no operand. -/
def bareInstrs : List Instr := [.getIv, .getBlockSize, .getKeySize, .getMode, .release]

theorem encode_of_mem_bareInstrs {i : Instr} (hi : i ∈ bareInstrs) :
    i.wf = true ∧ encode i = ⟨encodeWordZ i.opcode, []⟩ := by
  revert i; decide

/-! ## What each arm of the decoder accepts -/

theorem ite_error_eq_ok_iff {p : Prop} [Decidable p] {e : IllegalCause} {x : Except IllegalCause Instr} {i : Instr} :
    (if p then .error e else x) = .ok i ↔ ¬p ∧ x = .ok i := by
  split <;> simp [*]

theorem decodeInit_eq_ok_iff {c : Command} {i : Instr} : decodeInit c = .ok i ↔
    rsvFieldI c.word = 0 ∧ (ivpField c.word = false → ivlenField c.word = 0) ∧
      c.payload.length = initPayloadLength c.word ∧
      .init (modeField c.word) (c.payload.take (klenField c.word).toNat)
        (if ivpField c.word then some ((c.payload.drop (klenField c.word).toNat).take (ivlenField c.word).toNat)
          else none) = i := by
  simp only [decodeInit, ite_error_eq_ok_iff, ne_eq, not_not, not_and, Except.ok.injEq]

theorem decodeData_eq_ok_iff {mk : List Byte → Instr} {c : Command} {i : Instr} : decodeData mk c = .ok i ↔
    rsvFieldD c.word = 0 ∧ c.payload.length = (lenField c.word).toNat ∧ mk c.payload = i := by
  simp only [decodeData, ite_error_eq_ok_iff, ne_eq, not_not, Except.ok.injEq]

theorem decodeBare_eq_ok_iff {j : Instr} {c : Command} {i : Instr} : decodeBare j c = .ok i ↔
    rsvFieldZ c.word = 0 ∧ c.payload.length = 0 ∧ j = i := by
  simp only [decodeBare, ite_error_eq_ok_iff, ne_eq, not_not, Except.ok.injEq]

/-! ## The fields of a word of each format make up the word (R66) -/

section fields
variable {w : BitVec 32}

theorem rsvFieldI_eq_zero_iff : rsvFieldI w = 0 ↔ w.toNat / 2 ^ 20 = 0 := by
  rw [← BitVec.toNat_inj, rsvFieldI_toNat]; rfl
theorem ivlenField_eq_zero_iff : ivlenField w = 0 ↔ w.toNat / 2 ^ 14 % 2 ^ 6 = 0 := by
  rw [← BitVec.toNat_inj, ivlenField_toNat]; rfl
theorem rsvFieldD_eq_zero_iff : rsvFieldD w = 0 ↔ w.toNat / 2 ^ 4 % 2 ^ 4 = 0 := by
  rw [← BitVec.toNat_inj, rsvFieldD_toNat]; rfl
theorem rsvFieldZ_eq_zero_iff : rsvFieldZ w = 0 ↔ w.toNat / 2 ^ 4 = 0 := by
  rw [← BitVec.toNat_inj, rsvFieldZ_toNat]; rfl
theorem ivpField_toNat : (ivpField w).toNat = w.toNat / 2 ^ 7 % 2 := by
  rw [ivpField, BitVec.getLsbD, Nat.toNat_testBit]

theorem encodeWordI_fields (hop : (opField w).toNat = 1) (hrsv : rsvFieldI w = 0) :
    encodeWordI (ivlenField w) (klenField w) (ivpField w) (modeField w) = w := by
  rw [opField_toNat] at hop
  rw [rsvFieldI_eq_zero_iff] at hrsv
  apply BitVec.eq_of_toNat_eq
  rw [encodeWordI_toNat, ivlenField_toNat, klenField_toNat, ivpField_toNat, modeField_toNat]
  omega

theorem encodeWordD_fields (hrsv : rsvFieldD w = 0) : encodeWordD (lenField w) (opField w) = w := by
  rw [rsvFieldD_eq_zero_iff] at hrsv
  apply BitVec.eq_of_toNat_eq
  rw [encodeWordD_toNat, lenField_toNat, opField_toNat]
  omega

theorem encodeWordZ_field (hrsv : rsvFieldZ w = 0) : encodeWordZ (opField w) = w := by
  rw [rsvFieldZ_eq_zero_iff] at hrsv
  apply BitVec.eq_of_toNat_eq
  rw [encodeWordZ, BitVec.toNat_ofNat, opField_toNat]
  omega

end fields

/-! ## Decoding what the encoder writes -/

theorem decode_encode_init {mode : BitVec 3} {key : List Byte} {iv : Option (List Byte)}
    (h : (Instr.init mode key iv).wf = true) : decode (encode (.init mode key iv)) = .ok (.init mode key iv) := by
  obtain ⟨hkey, hiv⟩ := wf_init_iff.mp h
  cases iv with
  | none => simp [encode, decode, decodeInit, initPayloadLength, Nat.mod_eq_of_lt hkey]
  | some v =>
    simp [encode, decode, decodeInit, initPayloadLength, Nat.mod_eq_of_lt hkey, Nat.mod_eq_of_lt (hiv v rfl)]

theorem decode_encode_dirInstr {dir : Dir} {data : List Byte} (h : (dir.instr data).wf = true) :
    decode (encode (dir.instr data)) = .ok (dir.instr data) := by
  have hlen : data.length % 16777216 = data.length := Nat.mod_eq_of_lt (wf_dirInstr_iff.mp h)
  cases dir <;> simp [Dir.instr, encode, decode, decodeData, hlen]

/-- Settles O1, format by format. -/
theorem decodeOfEncodeIsIdentity : Obligations.DecodeOfEncodeIsIdentity := by
  intro i h
  cases i with
  | init mode key iv => exact decode_encode_init h
  | encrypt data => exact decode_encode_dirInstr (dir := .enc) h
  | decrypt data => exact decode_encode_dirInstr (dir := .dec) h
  | getIv => rfl
  | getBlockSize => rfl
  | getKeySize => rfl
  | getMode => rfl
  | release => rfl

/-! ## Encoding what the decoder reads -/

theorem encode_of_decodeInit {c : Command} {i : Instr} (hop : (opField c.word).toNat = 1)
    (h : decodeInit c = .ok i) : i.wf = true ∧ encode i = c := by
  obtain ⟨w, p⟩ := c
  obtain ⟨hrsv, hiv, hlen, rfl⟩ := decodeInit_eq_ok_iff.mp h
  have hw := encodeWordI_fields hop hrsv
  have hklen := (klenField w).isLt
  have hivlen := (ivlenField w).isLt
  cases hivp : ivpField w with
  | false =>
    have hlen' : p.length = (klenField w).toNat := by simpa [initPayloadLength, hivp] using hlen
    have hw' : encodeWordI 0 (klenField w) false (modeField w) = w := by simpa only [hiv hivp, hivp] using hw
    simpa [wf_init_iff, encode, hlen', hklen, List.take_of_length_le] using hw'
  | true =>
    have hlen' : p.length = (klenField w).toNat + (ivlenField w).toNat := by
      simpa [initPayloadLength, hivp] using hlen
    rw [hivp] at hw
    simp [wf_init_iff, encode, hlen', hklen, hivlen, hw, List.take_of_length_le]

theorem encode_of_decodeData {dir : Dir} {c : Command} {i : Instr}
    (hop : (opField c.word).toNat = (dir.instr c.payload).opcode.toNat) (h : decodeData dir.instr c = .ok i) :
    i.wf = true ∧ encode i = c := by
  obtain ⟨hrsv, hlen, rfl⟩ := decodeData_eq_ok_iff.mp h
  refine ⟨wf_dirInstr_iff.mpr (hlen ▸ (lenField c.word).isLt), ?_⟩
  rw [encode_dirInstr, ← BitVec.eq_of_toNat_eq hop, hlen, BitVec.ofNat_toNat, BitVec.setWidth_eq,
    encodeWordD_fields hrsv]

theorem encode_of_decodeBare {j : Instr} {c : Command} {i : Instr} (h : decodeBare j c = .ok i) (hj : j ∈ bareInstrs)
    (hop : (opField c.word).toNat = j.opcode.toNat) : i.wf = true ∧ encode i = c := by
  obtain ⟨hrsv, hlen, rfl⟩ := decodeBare_eq_ok_iff.mp h
  obtain ⟨hwf, henc⟩ := encode_of_mem_bareInstrs hj
  exact ⟨hwf, by rw [henc, ← BitVec.eq_of_toNat_eq hop, encodeWordZ_field hrsv, ← List.eq_nil_of_length_eq_zero hlen]⟩

/-- Settles O2, by the arm of the decoder that accepts the command. -/
theorem encodeOfDecodeIsIdentity : Obligations.EncodeOfDecodeIsIdentity := by
  intro c i h
  unfold decode at h
  split at h
  next hop => exact encode_of_decodeInit hop h
  next hop => exact encode_of_decodeData (dir := .enc) hop h
  next hop => exact encode_of_decodeData (dir := .dec) hop h
  iterate 5 next hop => exact encode_of_decodeBare h (by decide) hop
  next => cases h

/-- A command decodes to an instruction exactly when it is that instruction's encoding. -/
theorem decode_eq_ok_iff {c : Command} {i : Instr} : decode c = .ok i ↔ i.wf = true ∧ encode i = c :=
  ⟨encodeOfDecodeIsIdentity c i, fun ⟨hwf, henc⟩ => henc ▸ decodeOfEncodeIsIdentity i hwf⟩

/-! ## The opcode table -/

section masks
variable {w : BitVec 32}

/-- Format I: with `RSV` zero, the table's mask leaves `OP`. -/
theorem and_maskI (hrsv : rsvFieldI w = 0) : w &&& 0xFFF0000F = (opField w).setWidth 32 := by
  have hlt : w.toNat < 2 ^ 20 := by rw [rsvFieldI_eq_zero_iff] at hrsv; omega
  apply BitVec.eq_of_toNat_eq
  calc w.toNat &&& 0xFFF0000F = (w.toNat &&& 0xFFF0000F) % 2 ^ 20 :=
        (Nat.mod_eq_of_lt (Nat.and_le_left.trans_lt hlt)).symm
    _ = w.toNat &&& (2 ^ 4 - 1) := by rw [Nat.and_mod_two_pow, Nat.mod_eq_of_lt hlt]; rfl
    _ = w.toNat % 2 ^ 4 := Nat.and_two_pow_sub_one_eq_mod _ 4
    _ = ((opField w).setWidth 32).toNat := by rw [BitVec.toNat_setWidth, opField_toNat]; omega

/-- Format D: with `RSV` zero, the table's mask leaves `OP`. -/
theorem and_maskD (hrsv : rsvFieldD w = 0) : w &&& 0x000000FF = (opField w).setWidth 32 := by
  rw [rsvFieldD_eq_zero_iff] at hrsv
  apply BitVec.eq_of_toNat_eq
  calc w.toNat &&& (2 ^ 8 - 1) = w.toNat % 2 ^ 8 := Nat.and_two_pow_sub_one_eq_mod _ 8
    _ = ((opField w).setWidth 32).toNat := by rw [BitVec.toNat_setWidth, opField_toNat]; omega

end masks

theorem encode_word_and_mask (i : Instr) : (encode i).word &&& i.tableRow.mask = i.tableRow.pattern := by
  cases i with
  | init mode key iv =>
    cases iv <;> exact (and_maskI (rsvFieldI_encodeWordI ..)).trans (by rw [opField_encodeWordI]; rfl)
  | encrypt data => exact (and_maskD (rsvFieldD_encodeWordD ..)).trans (by rw [opField_encodeWordD]; rfl)
  | decrypt data => exact (and_maskD (rsvFieldD_encodeWordD ..)).trans (by rw [opField_encodeWordD]; rfl)
  | getIv => rfl
  | getBlockSize => rfl
  | getKeySize => rfl
  | getMode => rfl
  | release => rfl

/-- The row of an opcode, for the eight that have one (R70). -/
def rowOfOpcode (op : BitVec 4) : TableRow :=
  match op.toNat with
  | 1 => ⟨0xFFF0000F, op.setWidth 32⟩
  | 2 | 3 => ⟨0x000000FF, op.setWidth 32⟩
  | _ => ⟨0xFFFFFFFF, op.setWidth 32⟩

theorem tableRow_eq_rowOfOpcode (i : Instr) : i.tableRow = rowOfOpcode i.opcode := by
  cases i <;> rfl

/-- Every row fixes the four bits of `OP`. -/
theorem opField_rowOfOpcode : ∀ op : BitVec 4,
    opField (rowOfOpcode op).mask = BitVec.allOnes 4 ∧ opField (rowOfOpcode op).pattern = op := by
  decide

theorem opField_eq_of_and_mask {w : BitVec 32} {i : Instr} (h : w &&& i.tableRow.mask = i.tableRow.pattern) :
    opField w = i.opcode := by
  rw [tableRow_eq_rowOfOpcode] at h
  obtain ⟨hmask, hpattern⟩ := opField_rowOfOpcode i.opcode
  calc opField w = opField w &&& opField (rowOfOpcode i.opcode).mask := by rw [hmask, BitVec.and_allOnes]
    _ = opField (rowOfOpcode i.opcode).pattern := by rw [← h]; exact BitVec.extractLsb'_and.symm
    _ = i.opcode := hpattern

theorem encodedCommand (i : Instr) : Laws.EncodedCommand.Statement i := by
  cases i with
  | init mode key iv => exact Laws.EncodedCommand.init mode key iv
  | encrypt data => exact Laws.EncodedCommand.encrypt data
  | decrypt data => exact Laws.EncodedCommand.decrypt data
  | getIv => exact Laws.EncodedCommand.getIv
  | getBlockSize => exact Laws.EncodedCommand.getBlockSize
  | getKeySize => exact Laws.EncodedCommand.getKeySize
  | getMode => exact Laws.EncodedCommand.getMode
  | release => exact Laws.EncodedCommand.release

/-- Settles O3: the command is an encoding, which fits its own row, and a row's opcode determines it. -/
theorem decodedCommandFitsItsTableRow : Obligations.DecodedCommandFitsItsTableRow := by
  intro c i h
  obtain ⟨hwf, rfl⟩ := decode_eq_ok_iff.mp h
  obtain ⟨hop, hlen⟩ := encodedCommand i hwf
  refine ⟨encode_word_and_mask i, hlen, fun j hj => ?_⟩
  rw [tableRow_eq_rowOfOpcode j, tableRow_eq_rowOfOpcode i, ← hop, opField_eq_of_and_mask hj]

/-! ## The example words -/

theorem decode_init_without_iv {w : BitVec 32} {mode : BitVec 3} {key : List Byte} {n : Nat} (hkey : key.length = n)
    (hn : n < 64) (hw : encodeWordI 0 (BitVec.ofNat 6 n) false mode = w) :
    decode ⟨w, key⟩ = .ok (.init mode key none) := by
  subst hkey hw
  exact decode_eq_ok_iff.mpr ⟨wf_init_iff.mpr ⟨hn, nofun⟩, rfl⟩

theorem decode_init_with_iv {w : BitVec 32} {mode : BitVec 3} {key iv : List Byte} {n m : Nat} (hkey : key.length = n)
    (hiv : iv.length = m) (hn : n < 64) (hm : m < 64)
    (hw : encodeWordI (BitVec.ofNat 6 m) (BitVec.ofNat 6 n) true mode = w) :
    decode ⟨w, key ++ iv⟩ = .ok (.init mode key (some iv)) := by
  subst hkey hiv hw
  exact decode_eq_ok_iff.mpr ⟨wf_init_iff.mpr ⟨hn, by rintro v ⟨⟩; exact hm⟩, rfl⟩

theorem decode_data {w : BitVec 32} (dir : Dir) {data : List Byte} {n : Nat} (hdata : data.length = n)
    (hn : n < 2 ^ 24) (hw : encodeWordD (BitVec.ofNat 24 n) (dir.instr data).opcode = w) :
    decode ⟨w, data⟩ = .ok (dir.instr data) := by
  subst hdata hw
  exact decode_eq_ok_iff.mpr ⟨wf_dirInstr_iff.mpr hn, encode_dirInstr dir data⟩

/-- Settles O5: each word is what the encoder writes for the lengths of its payload. -/
theorem specExampleWordsDecode : Obligations.SpecExampleWordsDecode := by
  refine ⟨fun _ h => ?ecb128, fun _ _ hk hv => ⟨?cbc, ?cfb, ?ctr⟩, fun _ h => ?ecb192, fun _ h => ?ecb256,
    fun _ h => ?encrypt16, fun _ h => ⟨?encrypt64, ?decrypt64⟩, rfl, rfl⟩
  case ecb128 => exact decode_init_without_iv h (by decide) rfl
  case cbc => exact decode_init_with_iv hk hv (by decide) (by decide) rfl
  case cfb => exact decode_init_with_iv hk hv (by decide) (by decide) rfl
  case ctr => exact decode_init_with_iv hk hv (by decide) (by decide) rfl
  case ecb192 => exact decode_init_without_iv h (by decide) rfl
  case ecb256 => exact decode_init_without_iv h (by decide) rfl
  case encrypt16 => exact decode_data .enc h (by decide) rfl
  case encrypt64 => exact decode_data .enc h (by decide) rfl
  case decrypt64 => exact decode_data .dec h (by decide) rfl

end Sys2Proof

namespace Sys2Proof.Machine

/-! ## What a decoded command answers -/

theorem driveFull_out_length (rule : Block → Block → Block × Block) (r : Session) {data : List Byte}
    (h : data.length % 16 = 0) : (driveFull rule r data).out.length = data.length := by
  obtain ⟨X, t, rfl, ht, -⟩ := exists_joinBlocks_append _ data rfl
  obtain rfl : t = [] := List.eq_nil_of_length_eq_zero (by simp at h; omega)
  simp [driveFull_join]

theorem driveStream_out_length (rule : Block → Block → Block × Block) {short : Block → List Byte → List Byte × Block}
    (hshort : ∀ S x, x.length < 16 → (short S x).1.length = x.length) (r : Session) (data : List Byte) :
    (driveStream rule short r data).out.length = data.length := by
  obtain ⟨X, t, rfl, ht, -⟩ := exists_joinBlocks_append _ data rfl
  by_cases hne : t = []
  · simp [hne, driveStream_join]
  · simp [driveStream_join_tail _ _ _ _ hne ht, hshort _ _ ht]

theorem cfbPartial_length {dir : Dir} {r : Session} {S : Block} {x : List Byte} (h : x.length < 16) :
    (cfbPartial dir r S x).1.length = x.length := by
  cases dir <;> simp [cfbPartial] <;> omega

theorem ctrPartial_length {r : Session} {S : Block} {x : List Byte} (h : x.length < 16) :
    (ctrPartial r S x).1.length = x.length := by
  simp [ctrPartial]; omega

/-- A data command that passes its checks returns as many bytes as it was given. -/
theorem runEngine_out_length (dir : Dir) {r : Session} {data : List Byte} (h : dataStatus r data.length = .ok) :
    (runEngine dir r data).out.length = data.length := by
  obtain ⟨hfull, -⟩ := (dataStatus_ok_iff (configured_of_dataStatus_ok h) _).mp h
  unfold runEngine
  cases hm : r.mode with
  | ecb => exact driveFull_out_length _ r (hfull (.inl hm))
  | cbc => exact driveFull_out_length _ r (hfull (.inr hm))
  | cfb => exact driveStream_out_length _ (fun _ _ => cfbPartial_length) r data
  | ctr => exact driveStream_out_length _ (fun _ _ => ctrPartial_length) r data

theorem dataStatus_ne_illegalCommand (r : Session) (n : Nat) : dataStatus r n ≠ .illegalCommand := by
  unfold dataStatus
  split
  · simp
  · split <;> split <;> simp

theorem initialChain_error {m : Mode} {iv : Option (List Byte)} {e : Status} (h : initialChain m iv = .error e) :
    e = .missingIV ∨ e = .invalidIVLength := by
  unfold initialChain at h
  split at h
  · cases h
  · cases h; exact .inl rfl
  · split at h <;> cases h
    exact .inr rfl

/-- The statuses of a failing `INIT` (R191). -/
theorem checkInit_error {mode : BitVec 3} {key : List Byte} {iv : Option (List Byte)} {e : Status}
    (h : checkInit mode key iv = .error e) :
    e ∈ [Status.invalidKeyLength, .unsupportedMode, .missingIV, .invalidIVLength] := by
  unfold checkInit at h
  split at h
  · cases h; simp
  · split at h
    · cases h; simp
    · split at h
      next hchain =>
        cases h
        rcases initialChain_error hchain with rfl | rfl <;> simp
      next => cases h

/-- The outcome of a decoded command on `s` whose output, should it end `OK`, has `n` bytes: one more response, never
`IllegalCommand`, with no output on an error. -/
def Answers (s : State) (n : Nat) (o : Result) : Prop :=
  ∃ t r, o = .next t ∧ t.responses = s.responses ++ [r] ∧ r.status ≠ .illegalCommand ∧
    r.out.length = if r.status = .ok then n else 0

theorem answers_ok {s t : State} {n : Nat} {out : List Byte} (ht : t.responses = s.responses ++ [⟨.ok, out⟩])
    (hn : out.length = n) : Answers s n (.next t) :=
  ⟨t, _, rfl, ht, nofun, hn⟩

theorem answers_error {s t : State} {n : Nat} {e : Status} (ht : t.responses = s.responses ++ [⟨e, []⟩])
    (hok : e ≠ .ok) (hillegal : e ≠ .illegalCommand) : Answers s n (.next t) :=
  ⟨t, _, rfl, ht, hillegal, (if_neg hok).symm⟩

theorem dataCommand_answers (dir : Dir) (data : List Byte) (s : State) :
    Answers s data.length (dataCommand dir data s) := by
  by_cases h : dataStatus s.session data.length = .ok
  · exact dataCommand_ok h ▸ answers_ok rfl (runEngine_out_length dir h)
  · exact dataCommand_error h ▸ answers_error rfl h (dataStatus_ne_illegalCommand _ _)

theorem sessionQuery_answers {out : Session → List Byte} {n : Nat} (hn : ∀ r, (out r).length = n) (s : State) :
    Answers s n (sessionQuery out s) := by
  rw [sessionQuery_eq]
  split
  · exact answers_error rfl (by decide) (by decide)
  · exact answers_ok rfl (hn _)

theorem execInit_answers (mode : BitVec 3) (key : List Byte) (iv : Option (List Byte)) (s : State) :
    Answers s 0 (execInit mode key iv s) := by
  unfold execInit
  split
  next e h =>
    have he := checkInit_error h
    exact answers_error rfl (by rintro rfl; simp at he) (by rintro rfl; simp at he)
  next => exact answers_ok rfl rfl

/-- R68: how many bytes each command returns when it ends `OK`. -/
def outputLength : Instr → Nat
  | .init _ _ _ => 0
  | .encrypt data => data.length
  | .decrypt data => data.length
  | .getIv => 16
  | .getBlockSize => 1
  | .getKeySize => 1
  | .getMode => 1
  | .release => 0

/-- Every command that decodes is answered so, in one step (R190). -/
theorem exec_answers (i : Instr) (s : State) : Answers s (outputLength i) (exec i s) := by
  cases i with
  | init mode key iv => exact execInit_answers mode key iv s
  | encrypt data => exact dataCommand_answers .enc data s
  | decrypt data => exact dataCommand_answers .dec data s
  | getIv => exact sessionQuery_answers (fun r => r.chain.toBytes_length) s
  | getBlockSize => exact answers_ok rfl rfl
  | getKeySize => exact sessionQuery_answers (fun _ => rfl) s
  | getMode => exact sessionQuery_answers (fun _ => rfl) s
  | release => exact answers_ok rfl rfl

/-- Settles O40: the one response of the command is the one it answers. -/
theorem outputPayloadLengths : Obligations.OutputPayloadLengths := by
  intro i s t r h hresp
  obtain ⟨t', r', h', hresp', -, hlen⟩ := exec_answers i s
  cases h'.symm.trans h
  obtain rfl : r' = r := by simpa using hresp'.symm.trans hresp
  exact hlen

end Sys2Proof.Machine

namespace Sys2Proof

open Sys2Proof.Machine

/-! ## The illegal commands (R71, R73) -/

/-- The words that R71 leaves legal: an opcode with a row, reserved fields zero, and no IV length without an IV. -/
def LegalWord (w : BitVec 32) : Prop :=
  match (opField w).toNat with
  | 1 => rsvFieldI w = 0 ∧ (ivpField w = false → ivlenField w = 0)
  | 2 | 3 => rsvFieldD w = 0
  | 4 | 5 | 6 | 7 | 8 => rsvFieldZ w = 0
  | _ => False

/-- The decoder accepts a legal word with the payload it requires (R73), and nothing else. -/
theorem exists_decode_eq_ok_iff {c : Command} :
    (∃ i, decode c = .ok i) ↔ LegalWord c.word ∧ c.payload.length = requiredPayload c.word := by
  unfold decode
  split
  next hop => simp [LegalWord, requiredPayload, hop, decodeInit_eq_ok_iff, and_assoc]
  iterate 2 next hop => simp [LegalWord, requiredPayload, hop, decodeData_eq_ok_iff]
  iterate 5 next hop => simp [LegalWord, requiredPayload, hop, decodeBare_eq_ok_iff]
  next => simp [LegalWord, *]

theorem not_legalWord_iff {w : BitVec 32} : ¬LegalWord w ↔
    w.toNat % 16 = 0 ∨ 9 ≤ w.toNat % 16 ∨
      (w.toNat % 16 = 1 ∧ (w.toNat / 2 ^ 20 ≠ 0 ∨ (w.toNat / 2 ^ 7 % 2 = 0 ∧ w.toNat / 2 ^ 14 % 64 ≠ 0))) ∨
      ((w.toNat % 16 = 2 ∨ w.toNat % 16 = 3) ∧ w.toNat / 16 % 16 ≠ 0) ∨
      (4 ≤ w.toNat % 16 ∧ w.toNat % 16 ≤ 8 ∧ w.toNat / 16 ≠ 0) := by
  have hop : (opField w).toNat = w.toNat % 16 := opField_toNat w
  have hivp : ivpField w = false ↔ w.toNat / 2 ^ 7 % 2 = 0 := by simp [ivpField_eq]
  unfold LegalWord
  rw [hop, rsvFieldI_eq_zero_iff, hivp, ivlenField_eq_zero_iff, rsvFieldD_eq_zero_iff, rsvFieldZ_eq_zero_iff]
  split <;> grind

theorem requiredPayload_eq (w : BitVec 32) : requiredPayload w =
    if w.toNat % 16 = 1 then
      w.toNat / 2 ^ 8 % 64 + (if w.toNat / 2 ^ 7 % 2 = 1 then w.toNat / 2 ^ 14 % 64 else 0)
    else if w.toNat % 16 = 2 ∨ w.toNat % 16 = 3 then w.toNat / 2 ^ 8 else 0 := by
  have hop : (opField w).toNat = w.toNat % 16 := opField_toNat w
  unfold requiredPayload
  rw [initPayloadLength, hop, ivpField_eq, klenField_toNat, ivlenField_toNat, lenField_toNat]
  split <;> simp_all

theorem step_of_decode_error {s : State} {c : Command} {rest : List Event} {e : IllegalCause}
    (hin : s.input = .command c :: rest) (h : decode c = .error e) :
    step s = .next { s with input := rest, responses := s.responses ++ [⟨.illegalCommand, []⟩] } := by
  simp [step, State.takeEvent, hin, h, raise_eq]

/-- Settles O4: the decoder accepts exactly the legal words with the payload they require, and no command it accepts
answers `IllegalCommand`. -/
theorem illegalCommandForTheReservedEncodingsOnly : Obligations.IllegalCommandForTheReservedEncodingsOnly := by
  intro s c rest hin w op ivp klen ivlen illegalWord need
  have hword : ¬LegalWord c.word ↔ illegalWord := not_legalWord_iff
  have hneed : requiredPayload c.word = need := requiredPayload_eq c.word
  rw [← hword, ← hneed]
  cases hdec : decode c with
  | ok i =>
    obtain ⟨hlegal, hlen⟩ := exists_decode_eq_ok_iff.mp ⟨i, hdec⟩
    refine ⟨fun hbad => ?_, fun _ _ => ?_⟩
    · rcases hbad with hbad | hbad
      · exact absurd hlegal hbad
      · exact absurd hlen hbad
    · obtain ⟨t, r, ht, hresp, hne, -⟩ := exec_answers i { s with input := rest }
      exact ⟨t, r, (stepRunsTheDecodedCommand s c rest i hin hdec).trans ht, hresp, hne⟩
  | error e =>
    refine ⟨fun _ => step_of_decode_error hin hdec, fun hlegal hlen => ?_⟩
    obtain ⟨i, hi⟩ := exists_decode_eq_ok_iff.mpr ⟨not_not.mp hlegal, hlen⟩
    cases hdec.symm.trans hi

end Sys2Proof
end

section
/-! The key schedule (40_key_schedule.md): the words of a key, the recurrence of its expansion, the file that holds it,
and the statements about the `INIT` that stores it. -/

namespace Sys2Proof.Machine

/-! ## The words of the schedule -/

/-- R82: word `i` of a key is its bytes `4*i` to `4*i+3`. -/
theorem keyWords_getElem? (i : Nat) : ∀ key : List Byte, 4 * i + 3 < key.length → (keyWords key)[i]? =
    some ⟨key.getD (4 * i) 0, key.getD (4 * i + 1) 0, key.getD (4 * i + 2) 0, key.getD (4 * i + 3) 0⟩ := by
  induction i with
  | zero => exact fun | _ :: _ :: _ :: _ :: _, _ => rfl
  | succ i ih => exact fun | _ :: _ :: _ :: _ :: rest, h => ih rest (by simp only [List.length_cons] at h; omega)

/-- R84, R85, R86, R88: the three forms of `temp`, byte by byte. -/
theorem expandTemp_eq (nk i : Nat) (p : Word) : expandTemp nk i p =
    if i % nk = 0 then ⟨sbox p.a1 ^^^ rcon (i / nk), sbox p.a2, sbox p.a3, sbox p.a0⟩
    else if nk = 8 ∧ i % nk = 4 then ⟨sbox p.a0, sbox p.a1, sbox p.a2, sbox p.a3⟩
    else p := by
  simp [expandTemp, subWord, rotWord, rconWord, Word.xor, Word.ofFn, Word.byte]

/-- R91: a word before the first `i` are done is the word of the whole schedule. -/
theorem scheduleWord_take {w : List Word} {i j : Nat} (hj : j < i) (hi : i ≤ w.length) :
    scheduleWord (w.take i) j = w.getD j Word.zero := by
  have hw : j < w.length := by omega
  simp [scheduleWord, hj, hw]

/-- The next word after the first `i` of a schedule, as R87 writes it. -/
theorem expandNext_take {nk i : Nat} {w : List Word} (hnk : 0 < nk) (hi : nk ≤ i) (hw : i ≤ w.length) :
    expandNext nk (w.take i) =
      (w.getD (i - nk) Word.zero).xor (expandTemp nk i (w.getD (i - 1) Word.zero)) := by
  rw [expandNext, List.length_take_of_le hw, scheduleWord_take (by omega) hw, scheduleWord_take (by omega) hw]

/-! ## The round-key file of a legal key -/

section legalKey
variable {key : List Byte} (hkey : key.length = 16 ∨ key.length = 24 ∨ key.length = 32)
include hkey

/-- R80: `4*(Nr+1)` with `Nr = Nk + 6`. -/
theorem keyExpansion_length_eq : (keyExpansion key).length = 4 * (key.length / 4 + 7) :=
  keyExpansion_length hkey

/-- R28, R82: the file starts with the key. -/
theorem storedKey_toBytes {i : Nat} (h : i < 60) (hi : i < key.length / 4) :
    (storeSchedule (keyExpansion key))[i].toBytes =
      [key.getD (4 * i) 0, key.getD (4 * i + 1) 0, key.getD (4 * i + 2) 0, key.getD (4 * i + 3) 0] := by
  have hlen : i < (keyWords key).length := by rwa [keyWords_length (key.length / 4) key (by omega)]
  rw [storeSchedule_getElem, List.getD_eq_getElem?_getD, keyExpansion, expandWords, expandLoop_getElem? _ _ _ hlen,
    keyWords_getElem? i key (by omega)]
  rfl

/-- R87: the recurrence holds in the file, where the loop read its own unfinished list. -/
theorem storedSchedule_recurrence {i : Nat} (h : i < 60) (hnk : key.length / 4 ≤ i)
    (hi : i < 4 * (key.length / 4 + 7)) :
    (storeSchedule (keyExpansion key))[i] = (storeSchedule (keyExpansion key))[i - key.length / 4].xor
      (expandTemp (key.length / 4) i (storeSchedule (keyExpansion key))[i - 1]) := by
  have hwords : (keyWords key).length = key.length / 4 := keyWords_length _ key (by omega)
  have hlen := keyExpansion_length_eq hkey
  have hnext : (keyExpansion key)[i]? = some (expandNext (key.length / 4) ((keyExpansion key).take i)) :=
    expandLoop_next _ _ _ (by omega) (by simp only [scheduleLength, roundsOf]; omega)
  simp only [storeSchedule_getElem]
  rw [List.getD_eq_getElem?_getD, hnext, Option.getD_some, expandNext_take (by omega) hnk (by omega)]

/-- R93: no word of the schedule is left for these registers. -/
theorem storedSchedule_zero {i : Nat} (h : i < 60) (hi : 4 * (key.length / 4 + 7) ≤ i) :
    (storeSchedule (keyExpansion key))[i] = Word.zero := by
  rw [storeSchedule_getElem, List.getD_eq_default _ _ (by rwa [keyExpansion_length_eq hkey])]

end legalKey

/-! ## The INIT that stores it -/

/-- R160, R191: an `INIT` answers `OK` only when its checks pass, and then it has constructed the session. -/
theorem init_session_of_ok {mode : BitVec 3} {key : List Byte} {iv : Option (List Byte)} {s t : State}
    (h : exec (.init mode key iv) s = .next t) (hok : t.responses = s.responses ++ [⟨.ok, []⟩]) :
    ∃ m chain, checkInit mode key iv = .ok (m, chain) ∧ t.session = Session.construct m key chain := by
  have h : execInit mode key iv s = .next t := h
  unfold execInit at h
  split at h
  next e hcheck =>
    cases h
    obtain rfl : e = .ok := by simpa using hok
    exact absurd (checkInit_error hcheck) (by decide)
  next m chain hcheck =>
    cases h
    exact ⟨m, chain, hcheck, rfl⟩

/-- R87, R89: an `INIT` that ends `OK` had a legal key and stored that key's schedule. -/
theorem init_rk_of_ok {mode : BitVec 3} {key : List Byte} {iv : Option (List Byte)} {s t : State}
    (h : exec (.init mode key iv) s = .next t) (hok : t.responses = s.responses ++ [⟨.ok, []⟩]) :
    (key.length = 16 ∨ key.length = 24 ∨ key.length = 32) ∧ t.session.rk = storeSchedule (keyExpansion key) := by
  obtain ⟨m, chain, hcheck, hses⟩ := init_session_of_ok h hok
  obtain ⟨hkey, -, -⟩ := checkInit_ok_iff.mp hcheck
  exact ⟨legalKeyLength_iff.mp hkey, by rw [hses, construct_rk]⟩

/-- Settles O19: the stored file is the schedule of a legal key, read in its three ranges. -/
theorem initStoresTheKeySchedule : Obligations.InitStoresTheKeySchedule := by
  intro s t mode key iv h hok nk rk
  obtain ⟨hkey, hrk⟩ := init_rk_of_ok h hok
  have hfile : rk = storeSchedule (keyExpansion key) := hrk
  rw [hfile]
  refine ⟨fun i hlt => storedKey_toBytes hkey hlt, fun i hlt hnk hi => ?_, fun i hlt => storedSchedule_zero hkey hlt⟩
  rw [storedSchedule_recurrence hkey hlt hnk hi, expandTemp_eq]

/-- Settles O22: both files are the schedule of the one key. -/
theorem roundKeysDependOnTheKeyAlone : Obligations.RoundKeysDependOnTheKeyAlone := by
  intro s s' t t' key mode mode' iv iv' h h' hok hok'
  obtain ⟨-, hrk⟩ := init_rk_of_ok h hok
  obtain ⟨-, hrk'⟩ := init_rk_of_ok h' hok'
  rw [hrk, hrk']

end Sys2Proof.Machine
end

section
/-! The field GF(2^8) (41_round_transform.md R100 to R109): every map here is linear over XOR, so that laws of the product
need to be checked on the eight powers of `x` only; then the statements about the product and the S-box. -/

namespace Sys2Proof.Machine

/-! ## Linear maps -/

/-- R100: a map between bit vectors that respects addition, which is XOR. -/
def XorHom {v w : Nat} (f : BitVec v → BitVec w) : Prop := ∀ x y, f (x ^^^ y) = f x ^^^ f y

theorem XorHom.comp {u v w : Nat} {g : BitVec v → BitVec w} {f : BitVec u → BitVec v} (hg : XorHom g)
    (hf : XorHom f) : XorHom fun x => g (f x) := fun x y => (congrArg g (hf x y)).trans (hg _ _)

theorem XorHom.map_zero {v w : Nat} {f : BitVec v → BitVec w} (hf : XorHom f) : f 0 = 0 := by
  have h := hf 0 0
  rwa [BitVec.xor_self, BitVec.xor_self] at h

/-- Two loops run on the parts of a sum give the parts of what a third gives on the sum, when one turn does. -/
theorem foldl_xor {w : Nat} {f g h : BitVec w → Nat → BitVec w} (hturn : ∀ x y i, h (x ^^^ y) i = f x i ^^^ g y i)
    (l : List Nat) : ∀ x y, l.foldl h (x ^^^ y) = l.foldl f x ^^^ l.foldl g y := by
  induction l with
  | nil => exact fun x y => rfl
  | cons i l ih => exact fun x y => by rw [List.foldl_cons, hturn, ih, List.foldl_cons, List.foldl_cons]

/-- One turn of the loops of R101 and R103, on the sum of two factors `b`. -/
theorem xor_turn_bits {w : Nat} (p q : Bool) (x y t : BitVec w) :
    (if p ^^ q then x ^^^ y ^^^ t else x ^^^ y) = (if p then x ^^^ t else x) ^^^ (if q then y ^^^ t else y) := by
  have hcancel : x ^^^ t ^^^ (y ^^^ t) = x ^^^ y ^^^ (t ^^^ t) := by ac_rfl
  rw [BitVec.xor_self, BitVec.xor_zero] at hcancel
  cases p <;> cases q
  · rfl
  · exact BitVec.xor_assoc x y t
  · simp only [Bool.xor_false, if_true, Bool.false_eq_true, if_false]; ac_rfl
  · exact hcancel.symm

/-- One turn of the loops of R101 and R103, on the sum of two terms. -/
theorem xor_turn_terms {w : Nat} (p : Bool) (x y t u : BitVec w) :
    (if p then x ^^^ y ^^^ (t ^^^ u) else x ^^^ y) = (if p then x ^^^ t else x) ^^^ (if p then y ^^^ u else y) := by
  cases p
  · rfl
  · simp only [if_true]; ac_rfl

/-- A byte is the sum of the powers of `x` that its bits name. -/
theorem foldl_powers_eq (b : Byte) :
    (List.range 8).foldl (fun acc i => if b.getLsbD i then acc ^^^ 1#8 <<< i else acc) 0 = b := by
  have hall : ∀ n : Fin 256, (List.range 8).foldl
      (fun acc i => if (BitVec.ofFin n : Byte).getLsbD i then acc ^^^ 1#8 <<< i else acc) 0 = BitVec.ofFin n := by
    decide +kernel
  exact hall b.toFin

/-- A linear map on bytes takes a byte to the sum of what it takes the powers of `x` to. -/
theorem XorHom.eq_foldl {w : Nat} {f : Byte → BitVec w} (hf : XorHom f) (b : Byte) :
    f b = (List.range 8).foldl (fun acc i => if b.getLsbD i then acc ^^^ f (1#8 <<< i) else acc) 0 := by
  conv_lhs => rw [← foldl_powers_eq b]
  rw [← hf.map_zero]
  exact (List.foldl_hom f fun acc i => by split <;> simp only [hf _ _]).symm

/-- Linear maps on bytes are equal when they agree on the eight powers of `x`. -/
theorem XorHom.ext {w : Nat} {f g : Byte → BitVec w} (hf : XorHom f) (hg : XorHom g)
    (h : ∀ i : Fin 8, f (1#8 <<< i.val) = g (1#8 <<< i.val)) (b : Byte) : f b = g b := by
  rw [hf.eq_foldl, hg.eq_foldl]
  exact List.foldl_ext _ _ _ fun acc i hi => by rw [h ⟨i, List.mem_range.mp hi⟩]

/-- Bilinear maps on bytes are equal when they agree on the powers of `x`. -/
theorem xorHom_ext₂ {w : Nat} {f g : Byte → Byte → BitVec w} (hfl : ∀ b, XorHom (f · b)) (hfr : ∀ a, XorHom (f a))
    (hgl : ∀ b, XorHom (g · b)) (hgr : ∀ a, XorHom (g a))
    (h : ∀ i j : Fin 8, f (1#8 <<< i.val) (1#8 <<< j.val) = g (1#8 <<< i.val) (1#8 <<< j.val)) (a b : Byte) :
    f a b = g a b :=
  (hfl b).ext (hgl b) (fun i => (hfr _).ext (hgr _) (h i) b) a

/-! ## The product -/

/-- R102, as one turn of a loop. -/
theorem xtime_eq (b : Byte) : xtime b = if b.getLsbD 7 then b <<< 1 ^^^ 0x1b else b <<< 1 := by
  unfold xtime
  split
  · rfl
  · exact BitVec.xor_zero

theorem xtime_xorHom : XorHom xtime := fun x y => by
  rw [xtime_eq, xtime_eq, xtime_eq, BitVec.shiftLeft_xor_distrib, BitVec.getLsbD_xor, xor_turn_bits]

theorem xtimeIter_xorHom : ∀ i, XorHom (xtimeIter i)
  | 0 => fun _ _ => rfl
  | i + 1 => xtime_xorHom.comp (xtimeIter_xorHom i)

theorem gfMul_xorHom_right (a : Byte) : XorHom (gfMul a) := fun b c =>
  foldl_xor (fun x y i => by rw [BitVec.getLsbD_xor, xor_turn_bits]) _ 0 0

theorem gfMul_xorHom_left (b : Byte) : XorHom (gfMul · b) := fun a c =>
  foldl_xor (fun x y i => by rw [xtimeIter_xorHom i a c, xor_turn_terms]) _ 0 0

theorem polyMul_xorHom_right (a : Byte) : XorHom (polyMul a) := fun b c =>
  foldl_xor (fun x y i => by rw [BitVec.getLsbD_xor, xor_turn_bits]) _ 0 0

theorem polyMul_xorHom_left (b : Byte) : XorHom (polyMul · b) := fun a c =>
  foldl_xor (fun x y i => by rw [BitVec.setWidth_xor, BitVec.shiftLeft_xor_distrib, xor_turn_terms]) _ 0 0

theorem polyMod_xorHom : XorHom polyMod := fun p q => by
  rw [polyMod, foldl_xor (fun x y i => by rw [BitVec.getLsbD_xor, xor_turn_bits]), BitVec.setWidth_xor]
  rfl

/-- Settles O45: both products are linear in each factor and agree on the powers of `x`. -/
theorem gfProductIsThePolynomialProduct : Obligations.GfProductIsThePolynomialProduct :=
  xorHom_ext₂ gfMul_xorHom_left gfMul_xorHom_right (fun b => polyMod_xorHom.comp (polyMul_xorHom_left b))
    (fun a => polyMod_xorHom.comp (polyMul_xorHom_right a)) (by decide +kernel)

theorem gfMul_xor_left (a b c : Byte) : gfMul (a ^^^ b) c = gfMul a c ^^^ gfMul b c := gfMul_xorHom_left c a b

theorem gfMul_xor_right (a b c : Byte) : gfMul a (b ^^^ c) = gfMul a b ^^^ gfMul a c := gfMul_xorHom_right a b c

theorem gfMul_comm (a b : Byte) : gfMul a b = gfMul b a :=
  xorHom_ext₂ gfMul_xorHom_left gfMul_xorHom_right gfMul_xorHom_right gfMul_xorHom_left (by decide +kernel) a b

theorem gfMul_assoc (a b c : Byte) : gfMul (gfMul a b) c = gfMul a (gfMul b c) := by
  have hpow : ∀ i j k : Fin 8, gfMul (gfMul (1#8 <<< i.val) (1#8 <<< j.val)) (1#8 <<< k.val) =
      gfMul (1#8 <<< i.val) (gfMul (1#8 <<< j.val) (1#8 <<< k.val)) := by decide +kernel
  refine xorHom_ext₂ (f := fun a b => gfMul (gfMul a b) c) (g := fun a b => gfMul a (gfMul b c))
    (fun b => (gfMul_xorHom_left c).comp (gfMul_xorHom_left b))
    (fun a => (gfMul_xorHom_left c).comp (gfMul_xorHom_right a)) (fun b => gfMul_xorHom_left (gfMul b c))
    (fun a => (gfMul_xorHom_right a).comp (gfMul_xorHom_left c)) (fun i j => ?_) a b
  exact (gfMul_xorHom_right _).ext ((gfMul_xorHom_right _).comp (gfMul_xorHom_right _)) (hpow i j) c

theorem gfMul_zero_left (a : Byte) : gfMul 0x00 a = 0x00 := (gfMul_xorHom_left a).map_zero

theorem gfMul_one_left (a : Byte) : gfMul 0x01 a = a :=
  (gfMul_xorHom_right 0x01).ext (g := id) (fun _ _ => rfl) (by decide +kernel) a

theorem gfMul_two_left (a : Byte) : gfMul 0x02 a = xtime a :=
  (gfMul_xorHom_right 0x02).ext xtime_xorHom (by decide +kernel) a

/-- Settles O46: commutativity, associativity and linearity are checked on the powers of `x`, the rest follows. -/
theorem gfProductLaws : Obligations.GfProductLaws := fun a b c =>
  ⟨gfMul_comm a b, gfMul_assoc a b c, gfMul_xor_right a b c, gfMul_one_left a, gfMul_zero_left a, gfMul_two_left a⟩

/-! ## The inverse and the S-box -/

/-- R107 read backwards: the affine map of the S-box undone on its entry, which leaves the inverse of a non-zero byte,
and `00` for `00`. -/
def gfInv (b : Byte) : Byte :=
  (sbox b).rotateLeft 1 ^^^ (sbox b).rotateLeft 3 ^^^ (sbox b).rotateLeft 6 ^^^ 0x05

/-- R104, R107, R108: the printed table, entry by entry. -/
theorem gfInv_table : ∀ n : Fin 256, let b : Byte := BitVec.ofFin n
    (b ≠ 0x00 → gfMul b (gfInv b) = 0x01) ∧ sbox b = affine (gfInv b) := by decide +kernel

theorem gfMul_gfInv {b : Byte} (h : b ≠ 0x00) : gfMul b (gfInv b) = 0x01 := (gfInv_table b.toFin).1 h

theorem sbox_eq_affine_gfInv (b : Byte) : sbox b = affine (gfInv b) := (gfInv_table b.toFin).2

/-- R104: an inverse is the only one. -/
theorem eq_of_gfMul_eq_one {b y z : Byte} (hy : gfMul b y = 0x01) (hz : gfMul b z = 0x01) : z = y := by
  calc z = gfMul (gfMul b y) z := by rw [hy, gfMul_one_left]
    _ = gfMul y (gfMul b z) := by rw [gfMul_comm b y, gfMul_assoc]
    _ = y := by rw [hz, gfMul_comm, gfMul_one_left]

/-- Settles O47: the inverse stands in the table, and the field's laws leave no other. -/
theorem sboxIsTheAffineMapOfTheInverse : Obligations.SboxIsTheAffineMapOfTheInverse :=
  ⟨sbox_eq_affine_gfInv 0x00, fun b hb =>
    ⟨gfInv b, gfMul_gfInv hb, fun _ => eq_of_gfMul_eq_one (gfMul_gfInv hb), sbox_eq_affine_gfInv b⟩⟩

end Sys2Proof.Machine
end

section
/-! The round operations (41_round_transform.md R105 to R119, R122; 40_key_schedule.md R83): columns as polynomials modulo
`x^4 + 1`, where each operation takes its bytes from, and which operation undoes which. -/

namespace Sys2Proof.Machine

/-! ## Columns -/

/-- R112: the coefficients of a product modulo `x^4 + 1`, written out. -/
theorem polyColumnMul_eq (a w : Word) : polyColumnMul a w =
    ⟨gfMul a.a0 w.a0 ^^^ gfMul a.a3 w.a1 ^^^ gfMul a.a2 w.a2 ^^^ gfMul a.a1 w.a3,
      gfMul a.a1 w.a0 ^^^ gfMul a.a0 w.a1 ^^^ gfMul a.a3 w.a2 ^^^ gfMul a.a2 w.a3,
      gfMul a.a2 w.a0 ^^^ gfMul a.a1 w.a1 ^^^ gfMul a.a0 w.a2 ^^^ gfMul a.a3 w.a3,
      gfMul a.a3 w.a0 ^^^ gfMul a.a2 w.a1 ^^^ gfMul a.a1 w.a2 ^^^ gfMul a.a0 w.a3⟩ := rfl

/-- The product is associative, as that of the bytes is. -/
theorem polyColumnMul_assoc (a b w : Word) :
    polyColumnMul (polyColumnMul a b) w = polyColumnMul a (polyColumnMul b w) := by
  simp only [polyColumnMul_eq, gfMul_xor_left, gfMul_xor_right, gfMul_assoc]
  congr 1 <;> ac_rfl

/-- The polynomial `1` changes no column. -/
theorem polyColumnMul_one (w : Word) : polyColumnMul ⟨0x01, 0x00, 0x00, 0x00⟩ w = w := by
  simp only [polyColumnMul_eq, gfMul_one_left, gfMul_zero_left]
  simp

/-- R112, R113. -/
theorem mixColumn_eq (w : Word) : mixColumn w = polyColumnMul ⟨0x02, 0x01, 0x01, 0x03⟩ w := rfl

/-- R115, R116. -/
theorem invMixColumn_eq (w : Word) : invMixColumn w = polyColumnMul ⟨0x0e, 0x09, 0x0d, 0x0b⟩ w := rfl

/-- R115: the two polynomials multiply to `1`. -/
@[simp] theorem invMixColumn_mixColumn (w : Word) : invMixColumn (mixColumn w) = w := by
  have hone : polyColumnMul ⟨0x0e, 0x09, 0x0d, 0x0b⟩ ⟨0x02, 0x01, 0x01, 0x03⟩ = ⟨0x01, 0x00, 0x00, 0x00⟩ := by
    decide +kernel
  rw [mixColumn_eq, invMixColumn_eq, ← polyColumnMul_assoc, hone, polyColumnMul_one]

@[simp] theorem mixColumn_invMixColumn (w : Word) : mixColumn (invMixColumn w) = w := by
  have hone : polyColumnMul ⟨0x02, 0x01, 0x01, 0x03⟩ ⟨0x0e, 0x09, 0x0d, 0x0b⟩ = ⟨0x01, 0x00, 0x00, 0x00⟩ := by
    decide +kernel
  rw [mixColumn_eq, invMixColumn_eq, ← polyColumnMul_assoc, hone, polyColumnMul_one]

/-- Settles O48: the products by definition; they undo each other because the two polynomials multiply to `1`. -/
theorem mixColumnsIsAPolynomialProduct : Obligations.MixColumnsIsAPolynomialProduct :=
  ⟨fun w => ⟨mixColumn_eq w, invMixColumn_eq w, invMixColumn_mixColumn w, mixColumn_invMixColumn w⟩,
    fun s c => ⟨mixColumns_col s c, invMixColumns_col s c⟩⟩

/-! ## Operations on the state that undo each other -/

section undo
variable (s : Block)

@[simp] theorem invMixColumns_mixColumns : invMixColumns (mixColumns s) = s := by
  simp [invMixColumns, mixColumns]

@[simp] theorem mixColumns_invMixColumns : mixColumns (invMixColumns s) = s := by
  simp [invMixColumns, mixColumns]

@[simp] theorem invSubBytes_subBytes : invSubBytes (subBytes s) = s := Block.ext_get fun r c => by simp

@[simp] theorem subBytes_invSubBytes : subBytes (invSubBytes s) = s := Block.ext_get fun r c => by simp

@[simp] theorem invShiftRows_shiftRows : invShiftRows (shiftRows s) = s := Block.ext_get fun r c => by simp

@[simp] theorem shiftRows_invShiftRows : shiftRows (invShiftRows s) = s := Block.ext_get fun r c => by simp

/-- R119. -/
@[simp] theorem addRoundKey_addRoundKey (rk : Vector Word 60) (round : Nat) :
    addRoundKey rk round (addRoundKey rk round s) = s := Block.ext_get fun r c => by simp

/-- R122: one operation replaces bytes, the other moves them. -/
theorem invSubBytes_invShiftRows : invSubBytes (invShiftRows s) = invShiftRows (invSubBytes s) :=
  Block.ext_get fun r c => by simp

end undo

/-- The round keys of rounds 0 to 14 are in the file. -/
theorem rkWord_of_round_lt (rk : Vector Word 60) {round : Nat} (h : round < 15) (c : Fin 4) :
    rkWord rk (4 * round + c.val) = rk[4 * round + c.val]'(by omega) :=
  dif_pos _

/-- Settles O49: each operation byte by byte. -/
theorem roundOperationsByByte : Obligations.RoundOperationsByByte := fun rk round s r c hround =>
  ⟨shiftRows_get s r c, invShiftRows_get s r c, invShiftRows_shiftRows s, shiftRows_invShiftRows s,
    by rw [addRoundKey_get, rkWord_of_round_lt rk hround], addRoundKey_addRoundKey s rk round,
    invSubBytes_invShiftRows s⟩

/-! ## The tables -/

/-- R83: the expansion reads `Rcon` within 1 to 10. -/
theorem rcon_index_bounds {nk i : Nat} (hnk : nk = 4 ∨ nk = 6 ∨ nk = 8) (hi : nk ≤ i) (hlt : i < scheduleLength nk) :
    1 ≤ i / nk ∧ i / nk ≤ 10 := by
  simp only [scheduleLength, roundsOf] at hlt
  rcases hnk with rfl | rfl | rfl <;> omega

/-- Settles O54: the substitutions by byte, the example of R105 on its one block, and the constants of R83. -/
theorem tablesSubstituteEachByte : Obligations.TablesSubstituteEachByte := by
  refine ⟨fun s r c => ⟨subBytes_get s r c, invSubBytes_get s r c⟩, fun b => ⟨invSbox_sbox b, sbox_invSbox b⟩,
    by decide +kernel, by decide +kernel, by decide +kernel, by decide +kernel, fun s hs => ?_, rcon_succ.1,
    fun j hj hlt => ?_, by decide +kernel, fun nk i hnk hi hlt _ => rcon_index_bounds hnk hi hlt⟩
  · obtain rfl : s = ⟨⟨0, 1, 2, 3⟩, ⟨4, 5, 6, 7⟩, ⟨8, 9, 10, 11⟩, ⟨12, 13, 14, 15⟩⟩ :=
      Block.toBytes_injective (hs.trans (by decide +kernel))
    decide +kernel
  · obtain ⟨k, rfl⟩ := Nat.exists_eq_add_of_le' hj
    exact rcon_succ.2 ⟨k, by omega⟩

end Sys2Proof.Machine
end

section
/-! The ciphers (41_round_transform.md R120 to R123; 42_mode_engines.md R130; 95_test_vectors.md): each undoes the other
round by round, their rounds step by step, and the known answers of the three key sizes. -/

namespace Sys2Proof.Machine

/-! ## Each cipher undoes the other -/

/-- The part of a round that reads no key: in the last round of R120 it stands alone. -/
def subShift (s : Block) : Block := shiftRows (subBytes s)

/-- The part of a round of R121 that reads no key. -/
def invSubShift (s : Block) : Block := invSubBytes (invShiftRows s)

@[simp] theorem invSubShift_subShift (s : Block) : invSubShift (subShift s) = s := by simp [invSubShift, subShift]

@[simp] theorem subShift_invSubShift (s : Block) : subShift (invSubShift s) = s := by simp [invSubShift, subShift]

section rounds
variable (rk : Vector Word 60)

theorem encRound_eq (s : Block) (round : Nat) : encRound rk s round = addRoundKey rk round (mixColumns (subShift s)) :=
  rfl

theorem decRound_eq (s : Block) (round : Nat) :
    decRound rk s round = invMixColumns (addRoundKey rk round (invSubShift s)) := rfl

theorem cipher_eq (nr : Nat) (x : Block) : cipher rk nr x =
    addRoundKey rk nr (subShift ((middleRounds nr).foldl (encRound rk) (addRoundKey rk 0 x))) := rfl

theorem invCipher_eq (nr : Nat) (x : Block) : invCipher rk nr x =
    addRoundKey rk 0 (invSubShift ((middleRounds nr).reverse.foldl (decRound rk) (addRoundKey rk nr x))) := rfl

/-- A round of R121 undoes a round of R120, half a round apart. -/
theorem decRound_subShift_encRound (s : Block) (round : Nat) :
    decRound rk (subShift (encRound rk s round)) round = subShift s := by
  simp [decRound_eq, encRound_eq]

/-- A round of R120 undoes a round of R121, half a round apart. -/
theorem encRound_invSubShift_decRound (s : Block) (round : Nat) :
    encRound rk (invSubShift (decRound rk s round)) round = invSubShift s := by
  simp [decRound_eq, encRound_eq]

end rounds

/-- Rounds undone in reverse order, each half a round (`φ`) apart. -/
theorem foldl_reverse_foldl {f g : Block → Nat → Block} {φ : Block → Block}
    (hround : ∀ s round, g (φ (f s round)) round = φ s) (rounds : List Nat) :
    ∀ s, rounds.reverse.foldl g (φ (rounds.foldl f s)) = φ s := by
  induction rounds with
  | nil => exact fun s => rfl
  | cons round rounds ih =>
    intro s
    rw [List.foldl_cons, List.reverse_cons, List.foldl_append, ih, List.foldl_cons, List.foldl_nil, hround]

theorem invCipher_cipher (rk : Vector Word 60) (nr : Nat) (x : Block) : invCipher rk nr (cipher rk nr x) = x := by
  rw [cipher_eq, invCipher_eq, addRoundKey_addRoundKey, foldl_reverse_foldl (decRound_subShift_encRound rk),
    invSubShift_subShift, addRoundKey_addRoundKey]

theorem cipher_invCipher (rk : Vector Word 60) (nr : Nat) (x : Block) : cipher rk nr (invCipher rk nr x) = x := by
  have hrounds := foldl_reverse_foldl (encRound_invSubShift_decRound rk) (middleRounds nr).reverse
  rw [List.reverse_reverse] at hrounds
  rw [invCipher_eq, cipher_eq, addRoundKey_addRoundKey, hrounds, subShift_invSubShift, addRoundKey_addRoundKey]

/-- Settles O44: the rounds undo each other one by one, whatever the round keys are. -/
theorem ciphersUndoEachOther : Obligations.CiphersUndoEachOther := fun rk nr x =>
  ⟨invCipher_cipher rk nr x, cipher_invCipher rk nr x⟩

/-! ## The rounds step by step -/

/-- R120: the state after round `round`, from the state after AddRoundKey 0. -/
def encState (rk : Vector Word 60) (s : Block) (round : Nat) : Block :=
  (List.range' 1 round).foldl (encRound rk) s

theorem encState_succ (rk : Vector Word 60) (s : Block) (round : Nat) :
    encState rk s (round + 1) = encRound rk (encState rk s round) (round + 1) := by
  rw [encState, List.range'_concat, List.foldl_append, Nat.one_mul, Nat.add_comm 1 round]
  rfl

/-- R121: the state after round `round` of the inverse cipher, which counts its rounds down, from the state after
AddRoundKey `nr`. -/
def decState (rk : Vector Word 60) (nr : Nat) (s : Block) (round : Nat) : Block :=
  (List.range' round (nr - round)).reverse.foldl (decRound rk) s

theorem decState_self (rk : Vector Word 60) (nr : Nat) (s : Block) : decState rk nr s nr = s := by
  simp [decState]

theorem decState_of_lt (rk : Vector Word 60) {nr : Nat} (s : Block) {round : Nat} (h : round < nr) :
    decState rk nr s round = decRound rk (decState rk nr s (round + 1)) round := by
  rw [decState, show nr - round = nr - (round + 1) + 1 by omega, List.range'_succ, List.reverse_cons,
    List.foldl_append]
  rfl

theorem cipher_rounds (rk : Vector Word 60) (nr : Nat) (x : Block) :
    ∃ st : Nat → Block, st 0 = addRoundKey rk 0 x ∧
      (∀ round, 1 ≤ round → round < nr →
        st round = addRoundKey rk round (mixColumns (shiftRows (subBytes (st (round - 1)))))) ∧
      cipher rk nr x = addRoundKey rk nr (shiftRows (subBytes (st (nr - 1)))) := by
  refine ⟨encState rk (addRoundKey rk 0 x), rfl, fun round hone _ => ?_, rfl⟩
  obtain ⟨n, rfl⟩ := Nat.exists_eq_add_of_le' hone
  exact encState_succ rk _ n

theorem invCipher_rounds (rk : Vector Word 60) (nr : Nat) (x : Block) :
    ∃ st : Nat → Block, st nr = addRoundKey rk nr x ∧
      (∀ round, 1 ≤ round → round < nr →
        st round = invMixColumns (addRoundKey rk round (invSubBytes (invShiftRows (st (round + 1)))))) ∧
      invCipher rk nr x = addRoundKey rk 0 (invSubBytes (invShiftRows (st 1))) :=
  ⟨decState rk nr (addRoundKey rk nr x), decState_self rk nr _, fun _ _ hlt => decState_of_lt rk _ hlt, rfl⟩

/-- R25: `Nk` and `Nr` of a session by its `KLEN`. -/
theorem nk_and_rounds_of_klen {klen : BitVec 6} {nk nr : Nat}
    (h : klen = 16 ∧ nk = 4 ∧ nr = 10 ∨ klen = 24 ∧ nk = 6 ∧ nr = 12 ∨ klen = 32 ∧ nk = 8 ∧ nr = 14) :
    nkOfKlen klen = nk ∧ roundsOf nk = nr := by
  rcases h with ⟨rfl, rfl, rfl⟩ | ⟨rfl, rfl, rfl⟩ | ⟨rfl, rfl, rfl⟩ <;> exact ⟨rfl, rfl⟩

/-- Settles O55: the loops of the ciphers state by state, and the number of rounds from `KLEN`. -/
theorem ciphersRunTheirRounds : Obligations.CiphersRunTheirRounds := by
  refine ⟨fun rk nr x _ => ⟨cipher_rounds rk nr x, invCipher_rounds rk nr x⟩, fun r nk nr x hklen => ?_⟩
  obtain ⟨hnk, hnr⟩ := nk_and_rounds_of_klen hklen
  exact ⟨hnk, hnk.symm, hnr, hnr.symm, by rw [Session.enc, hnk, hnr], by rw [Session.dec, hnk, hnr]⟩

/-! ## Known answers -/

/-- R160: an `INIT` whose checks pass constructs its session. -/
theorem exec_init_of_checkInit {mode : BitVec 3} {key : List Byte} {iv : Option (List Byte)} {m : Mode} {chain : Block}
    (h : checkInit mode key iv = .ok (m, chain)) (s : State) : exec (.init mode key iv) s =
      .next ⟨Session.construct m key chain, s.input, s.responses ++ [⟨.ok, []⟩]⟩ := by
  change execInit mode key iv s = _
  rw [execInit, h]
  rfl

/-- R131, R132, R143: in ECB a payload of one block gives that block transformed. -/
theorem runEngine_ecb_block {r : Session} (hm : r.mode = .ecb) (dir : Dir) (x : Block) :
    (runEngine dir r x.toBytes).out = (ecbBlock dir r r.chain x).1.toBytes := by
  have hjoin : x.toBytes = joinBlocks [x] := (List.append_nil _).symm
  simp only [runEngine, hm]
  rw [hjoin, driveFull_join]
  exact List.append_nil _

/-- R131, R132, R166, R167: a data command of one block in an ECB session. -/
theorem exec_ecb_block {s : State} (hc : s.session.configured = true) (hm : s.session.mode = .ecb) (dir : Dir)
    (x : Block) : ∃ t, exec (dir.instr x.toBytes) s = .next t ∧
      t.responses = s.responses ++ [⟨.ok, (ecbBlock dir s.session s.session.chain x).1.toBytes⟩] := by
  have hok : dataStatus s.session x.toBytes.length = .ok := (dataStatus_ok_iff hc _).mpr (by simp [hm])
  refine ⟨_, (exec_dirInstr dir _ s).trans (dataCommand_ok hok), ?_⟩
  rw [runEngine_ecb_block hm]

/-- R123 for a session. -/
theorem dec_enc (r : Session) (x : Block) : r.dec (r.enc x) = x := invCipher_cipher r.rk _ x

/-- A vector of ECB under a legal key follows from its encryption alone. -/
theorem ecb_known_answer {key plain cipherText : List Byte} {x : Block} (hkey : legalKeyLength key.length = true)
    (hplain : x.toBytes = plain) (henc : ((Session.construct .ecb key Block.zero).enc x).toBytes = cipherText)
    (s : State) :
    ∃ s1 t u, exec (.init 0 key none) s = .next s1 ∧
      exec (.encrypt plain) s1 = .next t ∧ t.responses = s.responses ++ [⟨.ok, []⟩, ⟨.ok, cipherText⟩] ∧
      exec (.decrypt cipherText) s1 = .next u ∧ u.responses = s.responses ++ [⟨.ok, []⟩, ⟨.ok, plain⟩] := by
  subst hplain henc
  have hcheck : checkInit 0 key none = .ok (.ecb, Block.zero) := checkInit_ok_iff.mpr ⟨hkey, rfl, rfl⟩
  let s1 : State := ⟨Session.construct .ecb key Block.zero, s.input, s.responses ++ [⟨.ok, []⟩]⟩
  obtain ⟨t, ht, htr⟩ := exec_ecb_block (s := s1) rfl rfl .enc x
  obtain ⟨u, hu, hur⟩ := exec_ecb_block (s := s1) rfl rfl .dec (s1.session.enc x)
  refine ⟨s1, t, u, exec_init_of_checkInit hcheck s, ht, by rw [htr, List.append_assoc]; rfl, hu, ?_⟩
  rw [hur, ecbBlock, dec_enc, List.append_assoc]
  rfl

/-- Settles O56: one encryption is computed for each key size, and the decryption is what undoes it. -/
theorem knownAnswersOfTheThreeKeySizes : Obligations.KnownAnswersOfTheThreeKeySizes := by
  unfold Obligations.KnownAnswersOfTheThreeKeySizes
  intro plain s key cipherText hmem
  have hplain : (Block.ofCounter 0x00112233445566778899aabbccddeeff).toBytes = plain := by decide +kernel
  simp only [List.mem_cons, List.not_mem_nil, or_false, Prod.mk.injEq] at hmem
  rcases hmem with ⟨rfl, rfl⟩ | ⟨rfl, rfl⟩ | ⟨rfl, rfl⟩
  · exact ecb_known_answer (by decide +kernel) hplain (by decide +kernel) s
  · exact ecb_known_answer (by decide +kernel) hplain (by decide +kernel) s
  · exact ecb_known_answer (by decide +kernel) hplain (by decide +kernel) s

end Sys2Proof.Machine
end

section
/-! The mode engines (42_mode_engines.md): a payload's blocks and tail go through one rule each, chosen by the mode, so
that splitting a payload and undoing an encryption are stated once for the four modes; then the statements mode by mode. -/

namespace Sys2Proof.Machine

/-! ## One driver for the four modes -/

/-- R131 to R139: the rule of a full block in the session's mode. -/
def blockRule (dir : Dir) (r : Session) : Block → Block → Block × Block :=
  match r.mode with
  | .ecb => ecbBlock dir r
  | .cbc => cbcBlock dir r
  | .cfb => cfbBlock dir r
  | .ctr => ctrBlock r

/-- R137, R140: what becomes of the tail of a payload after its blocks have left the chain value `S`. ECB and CBC have
no tails (R145). -/
def tailRule (dir : Dir) (r : Session) (S : Block) (T : List Byte) : DataResult :=
  if T = [] then ⟨[], S, r.partialFlag⟩
  else
    match r.mode with
    | .ecb | .cbc => ⟨[], S, r.partialFlag⟩
    | .cfb => ⟨(cfbPartial dir r S T).1, (cfbPartial dir r S T).2, true⟩
    | .ctr => ⟨(ctrPartial r S T).1, (ctrPartial r S T).2, true⟩

section
variable {r : Session} (dir : Dir)

theorem blockRule_ecb (hm : r.mode = .ecb) : blockRule dir r = ecbBlock dir r := by rw [blockRule, hm]
theorem blockRule_cbc (hm : r.mode = .cbc) : blockRule dir r = cbcBlock dir r := by rw [blockRule, hm]
theorem blockRule_cfb (hm : r.mode = .cfb) : blockRule dir r = cfbBlock dir r := by rw [blockRule, hm]
theorem blockRule_ctr (hm : r.mode = .ctr) : blockRule dir r = ctrBlock r := by rw [blockRule, hm]

end

@[simp] theorem tailRule_nil (dir : Dir) (r : Session) (S : Block) :
    tailRule dir r S [] = ⟨[], S, r.partialFlag⟩ := rfl

theorem blockRule_advance (dir : Dir) (r : Session) (d : DataResult) :
    blockRule dir (r.advance d) = blockRule dir r := rfl

/-- The engine threads the chain value through the blocks and then the tail (R143, R144). -/
theorem runEngine_eq (dir : Dir) (r : Session) (X : List Block) {T : List Byte} (hT : T.length < 16) :
    runEngine dir r (joinBlocks X ++ T) =
      ⟨joinBlocks (runBlocks (blockRule dir r) r.chain X).1 ++
          (tailRule dir r (runBlocks (blockRule dir r) r.chain X).2 T).out,
        (tailRule dir r (runBlocks (blockRule dir r) r.chain X).2 T).chain,
        (tailRule dir r (runBlocks (blockRule dir r) r.chain X).2 T).partialFlag⟩ := by
  by_cases hne : T = []
  · subst hne
    cases hm : r.mode <;> simp [runEngine, blockRule, hm, driveFull_join, driveStream_join]
  · cases hm : r.mode <;> simp [runEngine, blockRule, tailRule, hm, hne, driveFull, hT, driveStream_join_tail]

/-- The engine on whole blocks. -/
theorem runEngine_joinBlocks (dir : Dir) (r : Session) (X : List Block) :
    runEngine dir r (joinBlocks X) =
      ⟨joinBlocks (runBlocks (blockRule dir r) r.chain X).1, (runBlocks (blockRule dir r) r.chain X).2,
        r.partialFlag⟩ := by
  simpa using runEngine_eq dir r X (T := []) (by decide)

/-! ## Data commands by their checks -/

theorem exists_dirInstr_of_mem {data : List Byte} {i : Instr} (h : i ∈ [Instr.encrypt data, .decrypt data]) :
    ∃ dir : Dir, i = dir.instr data := by
  obtain rfl | rfl : i = .encrypt data ∨ i = .decrypt data := by simpa using h
  · exact ⟨.enc, rfl⟩
  · exact ⟨.dec, rfl⟩

/-- R166, R167: a data command whose checks pass leaves what its engine gives. -/
theorem exec_dirInstr_ok {dir : Dir} {data : List Byte} {s : State} {d : DataResult}
    (hok : dataStatus s.session data.length = .ok) (hrun : runEngine dir s.session data = d) :
    exec (dir.instr data) s = .next
      { s with session := s.session.advance d, responses := s.responses ++ [⟨.ok, d.out⟩] } := by
  rw [exec_dirInstr, dataCommand_ok hok, hrun]

/-- A data command of blocks and a tail whose checks pass, in a mode of which `rule` is the block rule. -/
theorem exec_dirInstr_joinBlocks_append {dir : Dir} {s : State} {rule : Block → Block → Block × Block}
    (hrule : blockRule dir s.session = rule) {X : List Block} {T : List Byte} {S : Block} {d : DataResult}
    (hok : dataStatus s.session (joinBlocks X ++ T).length = .ok) (hT : T.length < 16)
    (hS : (runBlocks rule s.session.chain X).2 = S) (htail : tailRule dir s.session S T = d) :
    exec (dir.instr (joinBlocks X ++ T)) s = .next
      { s with session := s.session.advance d,
               responses := s.responses ++ [⟨.ok, joinBlocks (runBlocks rule s.session.chain X).1 ++ d.out⟩] } := by
  rw [exec_dirInstr_ok hok (runEngine_eq dir s.session X hT), hrule, hS, htail]
  rfl

/-- A data command of whole blocks whose checks pass, in a mode of which `rule` is the block rule. -/
theorem exec_dirInstr_joinBlocks {dir : Dir} {s : State} {rule : Block → Block → Block × Block}
    (hrule : blockRule dir s.session = rule) {X : List Block}
    (hok : dataStatus s.session (joinBlocks X).length = .ok) :
    exec (dir.instr (joinBlocks X)) s = .next
      { s with session := { s.session with chain := (runBlocks rule s.session.chain X).2 },
               responses := s.responses ++ [⟨.ok, joinBlocks (runBlocks rule s.session.chain X).1⟩] } := by
  rw [exec_dirInstr_ok hok (runEngine_joinBlocks dir s.session X), hrule]
  rfl

/-- R192: a data command that fails a check. -/
theorem exec_dirInstr_error {dir : Dir} {data : List Byte} {s : State} {e : Status}
    (herr : dataStatus s.session data.length = e) (he : e ≠ .ok) :
    exec (dir.instr data) s = .next { s with responses := s.responses ++ [⟨e, []⟩] } := by
  subst herr
  rw [exec_dirInstr, dataCommand_error he]

theorem dataStatus_ok_iff_accepts {r : Session} (hc : r.configured = true) (n : Nat) :
    dataStatus r n = .ok ↔ r.accepts n := by
  rw [dataStatus_ok_iff hc]
  cases hm : r.mode <;> simp [Session.accepts, hm]

/-- R145: whole blocks pass the checks of ECB and CBC. -/
theorem dataStatus_joinBlocks {r : Session} (hc : r.configured = true) (hm : r.mode = .ecb ∨ r.mode = .cbc)
    (X : List Block) : dataStatus r (joinBlocks X).length = .ok := by
  rw [dataStatus_ok_iff_accepts hc]
  rcases hm with hm | hm <;> simp [Session.accepts, hm]

/-- R146: without a partial chunk before it any data passes the checks of CFB and CTR. -/
theorem dataStatus_stream {r : Session} (hc : r.configured = true) (hm : r.mode = .cfb ∨ r.mode = .ctr)
    (hp : r.partialFlag = false) (n : Nat) : dataStatus r n = .ok := by
  rw [dataStatus_ok_iff_accepts hc]
  rcases hm with hm | hm <;> simp [Session.accepts, hm, hp]

/-- Settles O35: the length fails the one check of these modes. -/
theorem misalignedDataIsRejected : Obligations.MisalignedDataIsRejected := by
  intro s data hc hm hlen i hi
  obtain ⟨dir, rfl⟩ := exists_dirInstr_of_mem hi
  have herr : dataStatus s.session data.length = .invalidInputLength := by
    rcases hm with hm | hm <;> simp [dataStatus, hc, hm, hlen]
  exact exec_dirInstr_error herr (by decide)

/-- Settles O36: `PARTIAL` and a byte fail the one check of these modes. -/
theorem dataAfterAPartialChunkIsRejected : Obligations.DataAfterAPartialChunkIsRejected := by
  intro s data hc hm hp hne i hi
  obtain ⟨dir, rfl⟩ := exists_dirInstr_of_mem hi
  have herr : dataStatus s.session data.length = .partialBlockContinuation := by
    have hpos : 0 < data.length := List.length_pos_iff.mpr hne
    rcases hm with hm | hm <;> simp [dataStatus, hc, hm, hp, hpos]
  exact exec_dirInstr_error herr (by decide)

/-- Settles O37: no check fails on no data, and the engine has neither a block nor a tail. -/
theorem emptyDataChangesNothing : Obligations.EmptyDataChangesNothing := by
  intro s hc i hi
  obtain ⟨dir, rfl⟩ := exists_dirInstr_of_mem hi
  have hok : dataStatus s.session ([] : List Byte).length = .ok := (dataStatus_ok_iff hc 0).mpr (by simp)
  exact exec_dirInstr_ok hok (runEngine_joinBlocks dir s.session [])

/-! ## ECB and CBC -/

/-- Settles O29: the rule of ECB reads and writes no chain value. -/
theorem ecbTransformsEachBlock : Obligations.EcbTransformsEachBlock := by
  intro s X hc hm
  have hexec (dir : Dir) := exec_dirInstr_joinBlocks (blockRule_ecb dir hm) (dataStatus_joinBlocks hc (.inl hm) X)
  simp only [runBlocks_ecb] at hexec
  exact ⟨hexec .enc, hexec .dec⟩

/-- R133, R134: a data command of whole blocks in CBC. -/
theorem exec_cbc {s : State} (hc : s.session.configured = true) (hm : s.session.mode = .cbc) (dir : Dir)
    (X : List Block) : exec (dir.instr (joinBlocks X)) s = .next
      { s with
        session := { s.session with chain := (runBlocks (cbcBlock dir s.session) s.session.chain X).2 },
        responses := s.responses ++ [⟨.ok, joinBlocks (runBlocks (cbcBlock dir s.session) s.session.chain X).1⟩] } :=
  exec_dirInstr_joinBlocks (blockRule_cbc dir hm) (dataStatus_joinBlocks hc (.inr hm) X)

/-- Settles O30: the chain value before each block is the ciphertext block before it. -/
theorem cbcEncryptChainsCiphertext : Obligations.CbcEncryptChainsCiphertext := by
  intro s X hc hm
  obtain ⟨hblocks, hchain⟩ := runBlocks_cbc_enc s.session s.session.chain X
  exact ⟨_, runBlocks_length .., hblocks, hchain ▸ exec_cbc hc hm .enc X⟩

/-- Settles O31: the chain value before each block is the input block before it. -/
theorem cbcDecryptChainsCiphertext : Obligations.CbcDecryptChainsCiphertext := by
  intro s X hc hm
  obtain ⟨hblocks, hchain⟩ := runBlocks_cbc_dec s.session s.session.chain X
  exact ⟨_, runBlocks_length .., hblocks, hchain ▸ exec_cbc hc hm .dec X⟩

/-! ## CFB -/

/-- R135, R136: the ciphertext among the output `y` and the input `x` of a chunk. -/
def cfbCiphertext (dir : Dir) (y x : List Byte) : List Byte :=
  match dir with
  | .enc => y
  | .dec => x

theorem cfbPartial_eq (dir : Dir) (r : Session) (S : Block) (x : List Byte) : cfbPartial dir r S x =
    (xorBytes (r.enc S).toBytes x,
      completeWith (cfbCiphertext dir (xorBytes (r.enc S).toBytes x) x) (r.enc S)) := by
  cases dir <;> rfl

theorem cfbCiphertext_xorBytes_length {dir : Dir} {k x : List Byte} (h : x.length ≤ k.length) :
    (cfbCiphertext dir (xorBytes k x) x).length = x.length := by
  cases dir <;> simp [cfbCiphertext, h]

/-- R137: the chain value after a tail. -/
theorem cfbPartial_chain_toBytes {dir : Dir} {r : Session} {S : Block} {T : List Byte} (hT : T.length < 16) :
    (cfbPartial dir r S T).2.toBytes =
      cfbCiphertext dir (xorBytes (r.enc S).toBytes T) T ++ (r.enc S).toBytes.drop T.length := by
  have hlen : (cfbCiphertext dir (xorBytes (r.enc S).toBytes T) T).length = T.length :=
    cfbCiphertext_xorBytes_length (by simp; omega)
  rw [cfbPartial_eq, completeWith_toBytes _ (by omega), hlen]

/-- R137: the tail of a payload in CFB, empty or not. -/
theorem tailRule_cfb {r : Session} (hm : r.mode = .cfb) (hp : r.partialFlag = false) (dir : Dir) (S : Block)
    (T : List Byte) : tailRule dir r S T =
      ⟨xorBytes (r.enc S).toBytes T, if T = [] then S else (cfbPartial dir r S T).2, !T.isEmpty⟩ := by
  by_cases hne : T = []
  · simp [hne, hp]
  · simp [tailRule, hne, hm, cfbPartial_eq]

/-- R135 to R137, R144: a data command in CFB, whose blocks leave the chain value `S`. -/
theorem exec_cfb {s : State} (hc : s.session.configured = true) (hm : s.session.mode = .cfb)
    (hp : s.session.partialFlag = false) {dir : Dir} {X : List Block} {T : List Byte} (hT : T.length < 16) {S : Block}
    (hS : (runBlocks (cfbBlock dir s.session) s.session.chain X).2 = S) :
    exec (dir.instr (joinBlocks X ++ T)) s = .next
      { s with
        session := { s.session with
          chain := if T = [] then S else (cfbPartial dir s.session S T).2, partialFlag := !T.isEmpty },
        responses := s.responses ++ [⟨.ok, joinBlocks (runBlocks (cfbBlock dir s.session) s.session.chain X).1 ++
          xorBytes ((s.session.enc S).toBytes.take T.length) T⟩] } := by
  rw [xorBytes_take]
  exact exec_dirInstr_joinBlocks_append (blockRule_cfb dir hm) (dataStatus_stream hc (.inl hm) hp _) hT hS
    (tailRule_cfb hm hp dir S T)

/-- Settles O32: what is fed back is the output, block by block and then the tail's. -/
theorem cfbEncryptFeedsBackCiphertext : Obligations.CfbEncryptFeedsBackCiphertext := by
  intro s X T hc hm hp hT
  obtain ⟨hblocks, hchain⟩ := runBlocks_cfb_enc s.session s.session.chain X
  refine ⟨_, _, runBlocks_length .., hblocks, fun hnil => ?_, fun hne => ?_, exec_cfb (dir := .enc) hc hm hp hT hchain⟩
  · rw [if_pos hnil]
  · rw [if_neg hne, xorBytes_take]
    exact cfbPartial_chain_toBytes (dir := .enc) hT

/-- Settles O33: what is fed back is the input. -/
theorem cfbDecryptFeedsBackCiphertext : Obligations.CfbDecryptFeedsBackCiphertext := by
  intro s X T hc hm hp hT
  obtain ⟨hblocks, hchain⟩ := runBlocks_cfb_dec s.session s.session.chain X
  refine ⟨_, _, runBlocks_length .., hblocks, fun hnil => ?_, fun hne => ?_, exec_cfb (dir := .dec) hc hm hp hT hchain⟩
  · rw [if_pos hnil]
  · rw [if_neg hne]
    exact cfbPartial_chain_toBytes (dir := .dec) hT

/-! ## CTR -/

/-- R141: the counter after `n` is `n + 1`. -/
theorem inc128_ofCounter (n : Nat) : inc128 (Block.ofCounter n) = Block.ofCounter (n + 1) := by
  rw [inc128, Block.toCounter_ofCounter, Nat.mod_add_mod, Block.ofCounter_mod]

/-- Settles O51: the integer of the block after, and the wrap of the largest one. -/
theorem inc128AddsOneModulo128Bits : Obligations.Inc128AddsOneModulo128Bits := by
  refine ⟨fun s => ?_, Block.toCounter_ofCounter, fun s hs => ?_⟩
  · rw [inc128, Block.toCounter_ofCounter, Nat.mod_mod]
  · rw [inc128, Block.toCounter, hs]
    decide +kernel

/-- R140: the tail of a payload in CTR, empty or not. -/
theorem tailRule_ctr {r : Session} (hm : r.mode = .ctr) (hp : r.partialFlag = false) (dir : Dir) (n : Nat)
    (T : List Byte) : tailRule dir r (Block.ofCounter n) T =
      ⟨xorBytes (r.enc (Block.ofCounter n)).toBytes T, Block.ofCounter (n + if T = [] then 0 else 1), !T.isEmpty⟩ := by
  by_cases hne : T = []
  · simp [hne, hp]
  · simp [tailRule, hne, hm, ctrPartial, inc128_ofCounter]

/-- R138 to R140, R144: a data command in CTR. -/
theorem exec_ctr {s : State} (hc : s.session.configured = true) (hm : s.session.mode = .ctr)
    (hp : s.session.partialFlag = false) (dir : Dir) (X : List Block) {T : List Byte} (hT : T.length < 16) :
    exec (dir.instr (joinBlocks X ++ T)) s = .next
      { s with
        session := { s.session with
          chain := Block.ofCounter (s.session.chain.toCounter + (X.length + if T = [] then 0 else 1)),
          partialFlag := !T.isEmpty },
        responses := s.responses ++ [⟨.ok, joinBlocks (runBlocks (ctrBlock s.session) s.session.chain X).1 ++
          xorBytes ((s.session.enc (Block.ofCounter (s.session.chain.toCounter + X.length))).toBytes.take T.length)
            T⟩] } := by
  obtain ⟨-, hchain⟩ := runBlocks_ctr s.session s.session.chain X
  rw [xorBytes_take, ← Nat.add_assoc]
  exact exec_dirInstr_joinBlocks_append (blockRule_ctr dir hm) (dataStatus_stream hc (.inr hm) hp _) hT hchain
    (tailRule_ctr hm hp dir _ T)

/-- Settles O34: the counter before chunk `k` is `k` more than `CHAIN`, in both directions. -/
theorem ctrCountsOneBlockPerChunk : Obligations.CtrCountsOneBlockPerChunk := by
  intro s X T hc hm hp hT counter K
  have hcounter (k : Nat) : counter k = Block.ofCounter (s.session.chain.toCounter + k) := Block.ofCounter_mod _
  obtain ⟨hblocks, -⟩ := runBlocks_ctr s.session s.session.chain X
  refine ⟨_, runBlocks_length (ctrBlock s.session) s.session.chain X, fun k x y hx hy => ?_, fun i hi => ?_⟩
  · rw [hcounter]
    exact hblocks k x y hx hy
  · obtain ⟨dir, rfl⟩ := exists_dirInstr_of_mem hi
    simp only [K, hcounter]
    exact exec_ctr hc hm hp dir X hT

/-- R138: each output block of CTR. -/
theorem runBlocks_ctr_getElem? {r : Session} {S : Block} {X : List Block} {k : Nat} {x : Block} (hx : X[k]? = some x) :
    (runBlocks (ctrBlock r) S X).1[k]? = some ((r.enc (Block.ofCounter (S.toCounter + k))).xor x) := by
  obtain ⟨hk, -⟩ := List.getElem?_eq_some_iff.mp hx
  have hy := List.getElem?_eq_getElem (l := (runBlocks (ctrBlock r) S X).1) (i := k) (by rwa [runBlocks_length])
  rw [hy, (runBlocks_ctr r S X).1 k x _ hx hy]

theorem enc_injective (r : Session) : Function.Injective r.enc := Function.LeftInverse.injective (dec_enc r)

/-- R141: fewer than `2^128` counts apart, two counters differ. -/
theorem ofCounter_add_injOn {c i j : Nat} (hi : i < 2 ^ 128) (hj : j < 2 ^ 128)
    (h : Block.ofCounter (c + i) = Block.ofCounter (c + j)) : i = j := by
  have hmod : (c + i) % 2 ^ 128 = (c + j) % 2 ^ 128 := by
    rw [← Block.toCounter_ofCounter, h, Block.toCounter_ofCounter]
  omega

/-- R153: no keystream block comes back, so equal blocks are masked differently. -/
theorem runBlocks_ctr_ne {r : Session} {S : Block} {X : List Block} (hX : X.length ≤ 2 ^ 128) {i j : Nat} {x : Block}
    (hij : i ≠ j) (hi : X[i]? = some x) (hj : X[j]? = some x) :
    (runBlocks (ctrBlock r) S X).1[i]? ≠ (runBlocks (ctrBlock r) S X).1[j]? := by
  obtain ⟨hilt, -⟩ := List.getElem?_eq_some_iff.mp hi
  obtain ⟨hjlt, -⟩ := List.getElem?_eq_some_iff.mp hj
  rw [runBlocks_ctr_getElem? hi, runBlocks_ctr_getElem? hj]
  intro h
  have hkey : r.enc (Block.ofCounter (S.toCounter + i)) = r.enc (Block.ofCounter (S.toCounter + j)) := by
    rw [← Block.xor_xor_cancel (r.enc (Block.ofCounter (S.toCounter + i))) x, Option.some.inj h,
      Block.xor_xor_cancel]
  exact hij (ofCounter_add_injOn (by omega) (by omega) (enc_injective r hkey))

/-- An `ENCRYPT` of whole blocks in CTR. -/
theorem exec_ctr_joinBlocks {s : State} (hc : s.session.configured = true) (hm : s.session.mode = .ctr)
    (hp : s.session.partialFlag = false) (X : List Block) :
    exec (.encrypt (joinBlocks X)) s = .next
      { s with
        session := { s.session with chain := (runBlocks (ctrBlock s.session) s.session.chain X).2 },
        responses := s.responses ++ [⟨.ok, joinBlocks (runBlocks (ctrBlock s.session) s.session.chain X).1⟩] } :=
  exec_dirInstr_joinBlocks (blockRule_ctr .enc hm) (dataStatus_stream hc (.inr hm) hp _)

/-- Settles O43: the positions of a repeated block are positions of equal blocks. -/
theorem ctrRepeatedBlocksGiveDistinctBlocks : Obligations.CtrRepeatedBlocksGiveDistinctBlocks := by
  intro s b n hc hm hp hn
  have hexec := exec_ctr_joinBlocks hc hm hp (List.replicate n b)
  refine ⟨_, _, by rw [runBlocks_length, List.length_replicate], ?_, hexec, rfl⟩
  rw [List.nodup_iff_getElem?_ne_getElem?]
  intro i j hij hj
  rw [runBlocks_length, List.length_replicate] at hj
  exact runBlocks_ctr_ne (by rwa [List.length_replicate]) hij.ne
    (List.getElem?_replicate_of_lt (hij.trans hj)) (List.getElem?_replicate_of_lt hj)

/-- R50, R64: a step takes a waiting `ENCRYPT` of whole blocks that `LEN` can count. -/
theorem step_ctr_encrypt {s : State} (hc : s.session.configured = true) (hm : s.session.mode = .ctr)
    (hp : s.session.partialFlag = false) {X : List Block} (hX : 16 * X.length < 2 ^ 24) {rest : List Event}
    (hin : s.input = .command (encode (.encrypt (joinBlocks X))) :: rest) :
    ∃ t, step s = .next t ∧ t.input = rest ∧
      t.session = { s.session with chain := (runBlocks (ctrBlock s.session) s.session.chain X).2 } ∧
      t.responses = s.responses ++ [⟨.ok, joinBlocks (runBlocks (ctrBlock s.session) s.session.chain X).1⟩] := by
  have hwf : (Dir.enc.instr (joinBlocks X)).wf = true := wf_dirInstr_iff.mpr (by rwa [joinBlocks_length])
  have hstep : step s = exec (.encrypt (joinBlocks X)) { s with input := rest } :=
    stepRunsTheDecodedCommand s _ rest _ hin (decodeOfEncodeIsIdentity _ hwf)
  exact ⟨_, hstep.trans (exec_ctr_joinBlocks (s := { s with input := rest }) hc hm hp X), rfl, rfl, rfl⟩

/-- R52, R138: the waiting `ENCRYPT` commands of a CTR session give what one command of all their blocks would give. -/
theorem run_ctr_encrypts (payloads : List (List Block)) : ∀ s : State, s.session.configured = true →
    s.session.mode = .ctr → s.session.partialFlag = false →
    s.input = payloads.map (fun X => .command (encode (.encrypt (joinBlocks X)))) →
    (∀ X ∈ payloads, 16 * X.length < 2 ^ 24) →
    ∃ (outs : List (List Block)) (t : State), run payloads.length s = .next t ∧
      t.responses = s.responses ++ outs.map (fun Y => ⟨.ok, joinBlocks Y⟩) ∧
      outs.map List.length = payloads.map List.length ∧
      outs.flatten = (runBlocks (ctrBlock s.session) s.session.chain payloads.flatten).1 := by
  induction payloads with
  | nil => exact fun s _ _ _ _ _ => ⟨[], s, run_zero s, (List.append_nil _).symm, rfl, rfl⟩
  | cons X payloads ih =>
    intro s hc hm hp hin hlen
    obtain ⟨hX, hlen⟩ := List.forall_mem_cons.mp hlen
    obtain ⟨s', hstep, hin', hses, hresp⟩ := step_ctr_encrypt hc hm hp hX hin
    obtain ⟨outs, t, hrun, hresps, hlens, hflat⟩ :=
      ih s' (by rw [hses, hc]) (by rw [hses, hm]) (by rw [hses, hp]) hin' hlen
    refine ⟨(runBlocks (ctrBlock s.session) s.session.chain X).1 :: outs, t, ?_, ?_, ?_, ?_⟩
    · rw [List.length_cons, run_succ hstep, hrun]
    · rw [hresps, hresp, List.append_assoc]
      rfl
    · rw [List.map_cons, List.map_cons, hlens, runBlocks_length]
    · rw [List.flatten_cons, List.flatten_cons, hflat, runBlocks_append, hses]
      rfl

/-- Settles O58: the commands give the blocks of one run, in which equal blocks are masked differently. -/
theorem equalBlocksOfACtrSessionGiveDistinctBlocks : Obligations.EqualBlocksOfACtrSessionGiveDistinctBlocks := by
  intro s payloads hc hm hp hin hlen htotal
  obtain ⟨outs, t, hrun, hresp, hlens, hflat⟩ := run_ctr_encrypts payloads s hc hm hp hin hlen
  refine ⟨outs, t, hrun, hresp, hlens, fun i j x hij hi hj => ?_⟩
  rw [hflat]
  exact runBlocks_ctr_ne htotal hij hi hj

/-! ## A payload over two commands -/

/-- R52, R151: whole blocks first and the rest from the session they leave. -/
theorem runEngine_append (dir : Dir) (r : Session) {a : List Byte} (ha : a.length % 16 = 0) (b : List Byte) :
    runEngine dir r (a ++ b) =
      { runEngine dir (r.advance (runEngine dir r a)) b with
        out := (runEngine dir r a).out ++ (runEngine dir (r.advance (runEngine dir r a)) b).out } := by
  obtain ⟨X, t, rfl, ht, -⟩ := exists_joinBlocks_append _ a rfl
  obtain ⟨Y, T, rfl, hT, -⟩ := exists_joinBlocks_append _ b rfl
  obtain rfl : t = [] := List.eq_nil_of_length_eq_zero (by simp at ha; omega)
  rw [List.append_nil, ← List.append_assoc, ← joinBlocks_append, runEngine_eq _ _ _ hT, runEngine_eq _ _ _ hT,
    runBlocks_append, runEngine_joinBlocks, blockRule_advance, joinBlocks_append, List.append_assoc]
  rfl

/-- R31: whole blocks leave `PARTIAL` as it is. -/
theorem runEngine_partialFlag_of_mod_eq_zero (dir : Dir) (r : Session) {data : List Byte} (h : data.length % 16 = 0) :
    (runEngine dir r data).partialFlag = r.partialFlag := by
  simp [runEngine_partialFlag, h]

/-- A session that takes a payload takes its whole blocks first and then the rest. -/
theorem accepts_of_accepts_add {r : Session} {n k : Nat} (hn : n % 16 = 0) (h : r.accepts (n + k)) :
    r.accepts n ∧ r.accepts k := by
  have hfull (h : (n + k) % 16 = 0) : n % 16 = 0 ∧ k % 16 = 0 := by omega
  have hstream (h : r.partialFlag = false ∨ n + k = 0) :
      (r.partialFlag = false ∨ n = 0) ∧ (r.partialFlag = false ∨ k = 0) :=
    ⟨h.imp_right (by omega), h.imp_right (by omega)⟩
  unfold Session.accepts at h ⊢
  cases hm : r.mode with
  | ecb | cbc => exact hfull (by simpa only [hm] using h)
  | cfb | ctr => exact hstream (by simpa only [hm] using h)

theorem accepts_advance {r : Session} {d : DataResult} (hd : d.partialFlag = r.partialFlag) {n : Nat} :
    (r.advance d).accepts n ↔ r.accepts n := by
  simp [Session.accepts, hd]

/-- Settles O42: the second command starts from the session the first leaves, as the engine does in the middle. -/
theorem splittingDataAtABlockBoundaryChangesNothing : Obligations.SplittingDataAtABlockBoundaryChangesNothing := by
  intro s a b hc ha hacc mk hmk
  obtain ⟨dir, rfl⟩ : ∃ dir : Dir, mk = dir.instr := by
    obtain rfl | rfl : mk = .encrypt ∨ mk = .decrypt := by simpa using hmk
    · exact ⟨.enc, rfl⟩
    · exact ⟨.dec, rfl⟩
  obtain ⟨hacca, haccb⟩ := accepts_of_accepts_add ha hacc
  have hpart := runEngine_partialFlag_of_mod_eq_zero dir s.session ha
  have hoka := (dataStatus_ok_iff_accepts hc _).mpr hacca
  have hokb := (dataStatus_ok_iff_accepts (r := s.session.advance (runEngine dir s.session a)) hc _).mpr
    ((accepts_advance hpart).mpr haccb)
  have hok : dataStatus s.session (a ++ b).length = .ok :=
    (dataStatus_ok_iff_accepts hc _).mpr (by rwa [List.length_append])
  refine ⟨_, _, _, _, _, exec_dirInstr_ok hoka rfl, exec_dirInstr_ok hokb rfl,
    exec_dirInstr_ok hok (runEngine_append dir s.session ha b), ?_, rfl, rfl⟩
  exact List.append_assoc ..

/-! ## DECRYPT undoes ENCRYPT -/

/-- R150, block by block: from one chain value the rule of decryption gives the block back and leaves the same chain
value. -/
theorem blockRule_dec_enc (r : Session) (S X : Block) :
    blockRule .dec r S (blockRule .enc r S X).1 = (X, (blockRule .enc r S X).2) := by
  cases hm : r.mode <;> simp [blockRule, hm, ecbBlock, cbcBlock, cfbBlock, ctrBlock, dec_enc]

/-- Rules that undo each other on a block undo each other on a run of blocks. -/
theorem runBlocks_undo {f g : Block → Block → Block × Block} (h : ∀ S X, g S (f S X).1 = (X, (f S X).2))
    (X : List Block) : ∀ S, runBlocks g S (runBlocks f S X).1 = (X, (runBlocks f S X).2) := by
  induction X with
  | nil => exact fun S => rfl
  | cons x xs ih => exact fun S => by simp [h, ih]

/-- R150 for the tail, which ECB and CBC do not have. -/
theorem tailRule_dec_enc {r : Session} {T : List Byte} (hT : T.length < 16)
    (hfull : r.mode = .ecb ∨ r.mode = .cbc → T = []) (S : Block) :
    (tailRule .enc r S T).out.length = T.length ∧
      tailRule .dec r S (tailRule .enc r S T).out = { tailRule .enc r S T with out := T } := by
  by_cases hne : T = []
  · simp [hne]
  · have hlen : (xorBytes (r.enc S).toBytes T).length = T.length := by simp; omega
    have hout : xorBytes (r.enc S).toBytes T ≠ [] := fun h => hne (List.eq_nil_of_length_eq_zero (by simp [← hlen, h]))
    have hcancel := xorBytes_cancel (r.enc S).toBytes T (by simp; omega)
    cases hm : r.mode with
    | ecb => exact absurd (hfull (.inl hm)) hne
    | cbc => exact absurd (hfull (.inr hm)) hne
    | cfb => simp [tailRule, hm, hne, hlen, hout, hcancel, cfbPartial]
    | ctr => simp [tailRule, hm, hne, hlen, hout, hcancel, ctrPartial]

/-- R150 for the engines: from the same session, decryption gives the plaintext back and leaves the same registers. -/
theorem runEngine_dec_enc {r : Session} {data : List Byte} (h : dataStatus r data.length = .ok) :
    runEngine .dec r (runEngine .enc r data).out = { runEngine .enc r data with out := data } := by
  obtain ⟨hfull, -⟩ := (dataStatus_ok_iff (configured_of_dataStatus_ok h) _).mp h
  obtain ⟨X, T, rfl, hT, -⟩ := exists_joinBlocks_append _ data rfl
  have hnil (hm : r.mode = .ecb ∨ r.mode = .cbc) : T = [] := by
    have := hfull hm
    exact List.eq_nil_of_length_eq_zero (by simp at this; omega)
  obtain ⟨hlen, htail⟩ := tailRule_dec_enc hT hnil (runBlocks (blockRule .enc r) r.chain X).2
  rw [runEngine_eq _ _ _ hT, runEngine_eq _ _ _ (hlen.trans_lt hT), runBlocks_undo (blockRule_dec_enc r), htail]

/-- R150: the two commands on one session, whatever else their cores hold. -/
theorem exec_encrypt_decrypt {r : Session} {data : List Byte} (h : dataStatus r data.length = .ok) (s s' : State) :
    exec (.encrypt data) { s with session := r } =
        .next { s with session := r.advance (runEngine .enc r data),
                       responses := s.responses ++ [⟨.ok, (runEngine .enc r data).out⟩] } ∧
      exec (.decrypt (runEngine .enc r data).out) { s' with session := r } =
        .next { s' with session := r.advance (runEngine .enc r data),
                        responses := s'.responses ++ [⟨.ok, data⟩] } := by
  refine ⟨exec_dirInstr_ok (dir := .enc) h rfl, ?_⟩
  exact exec_dirInstr_ok (dir := .dec) (by rwa [runEngine_out_length .enc h]) (runEngine_dec_enc h)

/-- R63: the codes 0 to 3 name the four modes. -/
theorem exists_mode_of_code_le {mode : BitVec 3} (h : mode.toNat ≤ 3) :
    ∃ m, Mode.ofField mode = some m ∧ m.code.toNat = mode.toNat := by
  unfold Mode.ofField
  interval_cases mode.toNat
  · exact ⟨.ecb, rfl, rfl⟩
  · exact ⟨.cbc, rfl, rfl⟩
  · exact ⟨.cfb, rfl, rfl⟩
  · exact ⟨.ctr, rfl, rfl⟩

/-- R160, R163, R164: an `INIT` whose operands are legal constructs a session of the mode it names. -/
theorem exists_checkInit_ok {mode : BitVec 3} {key : List Byte} {iv : Option (List Byte)}
    (hkey : key.length = 16 ∨ key.length = 24 ∨ key.length = 32)
    (hmode : mode = 0 ∨ (1 ≤ mode.toNat ∧ mode.toNat ≤ 3 ∧ ∃ v, iv = some v ∧ v.length = 16)) :
    ∃ m chain, checkInit mode key iv = .ok (m, chain) ∧ m.code.toNat = mode.toNat := by
  simp only [checkInit_ok_iff, initialChain_ok_iff]
  rcases hmode with rfl | ⟨hpos, hle, v, rfl, hv⟩
  · exact ⟨.ecb, Block.zero, ⟨legalKeyLength_iff.mpr hkey, rfl, .inl ⟨rfl, rfl⟩⟩, rfl⟩
  · obtain ⟨m, hm, hcode⟩ := exists_mode_of_code_le hle
    obtain ⟨chain, rfl⟩ := Block.exists_toBytes hv
    have hne : m ≠ .ecb := by
      rintro rfl
      exact absurd hcode.symm (Nat.ne_of_gt hpos)
    exact ⟨m, chain, ⟨legalKeyLength_iff.mpr hkey, hm, .inr ⟨hne, rfl⟩⟩, hcode⟩

/-- R145, R146: a new session takes any length that is whole blocks if its mode asks for them. -/
theorem dataStatus_construct {m : Mode} {n : Nat} (h : m.code.toNat ≤ 1 → n % 16 = 0) (key : List Byte)
    (chain : Block) : dataStatus (Session.construct m key chain) n = .ok := by
  rw [dataStatus_ok_iff_accepts rfl]
  cases m with
  | ecb => exact h (by decide)
  | cbc => exact h (by decide)
  | cfb => exact .inl rfl
  | ctr => exact .inl rfl

/-- Settles O41: the two `INIT`s construct one session, from which decryption undoes encryption. -/
theorem decryptUndoesEncryptOnAFreshSession : Obligations.DecryptUndoesEncryptOnAFreshSession := by
  intro s s' mode key data iv hkey hmode hlen
  obtain ⟨m, chain, hcheck, hcode⟩ := exists_checkInit_ok hkey hmode
  have hok := dataStatus_construct (hcode ▸ hlen) key chain
  obtain ⟨henc, hdec⟩ := exec_encrypt_decrypt hok { s with responses := s.responses ++ [⟨.ok, []⟩] }
    { s' with responses := s'.responses ++ [⟨.ok, []⟩] }
  exact ⟨_, _, _, _, _, exec_init_of_checkInit hcheck s, henc, exec_init_of_checkInit hcheck s', hdec,
    List.append_assoc .., List.append_assoc .., rfl⟩

/-! ## Known answers -/

/-- What a vector compares: the output of an engine, and the `CHAIN` and `PARTIAL` it leaves. -/
def DataResult.observed (d : DataResult) : List Byte × List Byte × Bool := (d.out, d.chain.toBytes, d.partialFlag)

/-- A vector of any mode follows from its encryption alone. -/
theorem mode_known_answer {mode : BitVec 3} {key plain cipherText chainBytes : List Byte} {iv : Option (List Byte)}
    {m : Mode} {chain : Block} {part : Bool} (hcheck : checkInit mode key iv = .ok (m, chain))
    (hok : dataStatus (Session.construct m key chain) plain.length = .ok)
    (henc : (runEngine .enc (Session.construct m key chain) plain).observed = (cipherText, chainBytes, part))
    (s : State) :
    ∃ s1 t u, exec (.init mode key iv) s = .next s1 ∧
      exec (.encrypt plain) s1 = .next t ∧ t.responses = s.responses ++ [⟨.ok, []⟩, ⟨.ok, cipherText⟩] ∧
      t.session.chain.toBytes = chainBytes ∧ t.session.partialFlag = part ∧
      exec (.decrypt cipherText) s1 = .next u ∧ u.responses = s.responses ++ [⟨.ok, []⟩, ⟨.ok, plain⟩] ∧
      u.session.chain.toBytes = chainBytes ∧ u.session.partialFlag = part := by
  simp only [DataResult.observed, Prod.mk.injEq] at henc
  obtain ⟨rfl, rfl, rfl⟩ := henc
  let s1 : State := { s with responses := s.responses ++ [⟨.ok, []⟩] }
  obtain ⟨henc, hdec⟩ := exec_encrypt_decrypt hok s1 s1
  exact ⟨_, _, _, exec_init_of_checkInit hcheck s, henc, List.append_assoc .., rfl, rfl, hdec,
    List.append_assoc .., rfl, rfl⟩

/-- Settles O57: one encryption is computed for each mode, and the decryption is what undoes it. -/
theorem knownAnswersOfTheFourModes : Obligations.KnownAnswersOfTheFourModes := by
  unfold Obligations.KnownAnswersOfTheFourModes
  intro key iv counter p20 s mode iv? plain cipherText chain part hmem
  simp only [List.mem_cons, List.not_mem_nil, or_false, Prod.mk.injEq] at hmem
  rcases hmem with ⟨rfl, rfl, rfl, rfl, rfl, rfl⟩ | ⟨rfl, rfl, rfl, rfl, rfl, rfl⟩ | ⟨rfl, rfl, rfl, rfl, rfl, rfl⟩ |
    ⟨rfl, rfl, rfl, rfl, rfl, rfl⟩
  · exact mode_known_answer (m := .ecb) (chain := Block.zero) (by decide +kernel) (by decide +kernel)
      (by decide +kernel) s
  · exact mode_known_answer (m := .cbc) (chain := Block.ofCounter 0x000102030405060708090a0b0c0d0e0f)
      (by decide +kernel) (by decide +kernel) (by decide +kernel) s
  · exact mode_known_answer (m := .cfb) (chain := Block.ofCounter 0x000102030405060708090a0b0c0d0e0f)
      (by decide +kernel) (by decide +kernel) (by decide +kernel) s
  · exact mode_known_answer (m := .ctr) (chain := Block.ofCounter 0xf0f1f2f3f4f5f6f7f8f9fafbfcfdfeff)
      (by decide +kernel) (by decide +kernel) (by decide +kernel) s

end Sys2Proof.Machine
end

section
/-! The session commands and the queries (43_commands.md): what the checks of `INIT` read off its operands, one lemma
per answer of an `INIT` and of a query, and the statements. -/

namespace Sys2Proof.Machine

/-! ## The checks of INIT -/

/-- R63: a `MODE` field names the mode of its code. -/
theorem Mode.ofField_eq_some_iff {f : BitVec 3} {m : Mode} : Mode.ofField f = some m ↔ f.toNat = m.code.toNat := by
  cases m <;> revert f <;> decide

/-- R63, R162: the codes 4 to 7 name no mode. -/
theorem Mode.ofField_eq_none {f : BitVec 3} (h : 4 ≤ f.toNat) : Mode.ofField f = none := by
  refine Option.eq_none_iff_forall_ne_some.mpr fun m hm => ?_
  have hcode : f.toNat = m.code.toNat := Mode.ofField_eq_some_iff.mp hm
  have hlt : m.code.toNat < 4 := m.code.isLt
  omega

/-- R164: outside ECB an `INIT` needs an IV. -/
theorem initialChain_none {m : Mode} (hm : m ≠ .ecb) : initialChain m none = .error .missingIV := by
  cases m with
  | ecb => exact absurd rfl hm
  | cbc | cfb | ctr => rfl

/-- R164: outside ECB the IV has 16 bytes. -/
theorem initialChain_of_length_ne {m : Mode} (hm : m ≠ .ecb) {v : List Byte} (hv : v.length ≠ 16) :
    initialChain m (some v) = .error .invalidIVLength := by
  cases m with
  | ecb => exact absurd rfl hm
  | cbc | cfb | ctr => simp only [initialChain, Block.ofBytes?_eq_none hv]

section checks
variable {mode : BitVec 3} {key : List Byte} {iv : Option (List Byte)}

theorem checkInit_of_illegal_key (hkey : ¬(key.length = 16 ∨ key.length = 24 ∨ key.length = 32)) :
    checkInit mode key iv = .error .invalidKeyLength :=
  if_pos (Bool.eq_false_iff.mpr fun h => hkey (legalKeyLength_iff.mp h))

variable (hkey : key.length = 16 ∨ key.length = 24 ∨ key.length = 32)
include hkey

theorem checkInit_of_ofField_eq_none (hmode : Mode.ofField mode = none) :
    checkInit mode key iv = .error .unsupportedMode := by
  simp only [checkInit, legalKeyLength_iff.mpr hkey, hmode, Bool.true_eq_false, if_false]

theorem checkInit_of_initialChain_error {m : Mode} (hmode : Mode.ofField mode = some m) {e : Status}
    (hchain : initialChain m iv = .error e) : checkInit mode key iv = .error e := by
  simp only [checkInit, legalKeyLength_iff.mpr hkey, hmode, hchain, Bool.true_eq_false, if_false]

end checks

/-- R63: the codes 1 to 3 name the modes other than ECB. -/
theorem exists_mode_ne_ecb {mode : BitVec 3} (hpos : 1 ≤ mode.toNat) (hle : mode.toNat ≤ 3) :
    ∃ m, Mode.ofField mode = some m ∧ m ≠ .ecb := by
  obtain ⟨m, hm, hcode⟩ := exists_mode_of_code_le hle
  refine ⟨m, hm, ?_⟩
  rintro rfl
  exact absurd hcode.symm (Nat.ne_of_gt hpos)

/-! ## INIT and RELEASE -/

/-- R161, R165: an `INIT` that fails a check changes no register. -/
theorem exec_init_of_checkInit_error {mode : BitVec 3} {key : List Byte} {iv : Option (List Byte)} {e : Status}
    (h : checkInit mode key iv = .error e) (s : State) :
    exec (.init mode key iv) s = .next { s with responses := s.responses ++ [⟨e, []⟩] } := by
  change execInit mode key iv s = _
  rw [execInit, h]
  rfl

/-- Settles O18: the operands pass every check. -/
theorem initConstructsTheSession : Obligations.InitConstructsTheSession := by
  intro s m mode key iv chain hkey hmode hchain
  have hcheck : checkInit mode key iv = .ok (m, chain) :=
    checkInit_ok_iff.mpr ⟨legalKeyLength_iff.mpr hkey, Mode.ofField_eq_some_iff.mpr hmode,
      initialChain_ok_iff.mpr hchain⟩
  exact exec_init_of_checkInit hcheck s

/-- Settles O20: the operands fail the check named, and pass those before it. -/
theorem initErrorsInPriorityOrder : Obligations.InitErrorsInPriorityOrder := by
  intro s mode key iv ends legal
  have ends_of {e : Status} (h : checkInit mode key iv = .error e) : ends e := exec_init_of_checkInit_error h s
  refine ⟨fun hkey => ?_, fun hkey hmode => ?_, fun hkey hpos hle hiv => ?_, fun hkey hpos hle v hiv hv => ?_⟩
  · exact ends_of (checkInit_of_illegal_key hkey)
  · exact ends_of (checkInit_of_ofField_eq_none hkey (Mode.ofField_eq_none hmode))
  · obtain ⟨m, hm, hne⟩ := exists_mode_ne_ecb hpos hle
    exact ends_of (checkInit_of_initialChain_error hkey hm (hiv ▸ initialChain_none hne))
  · obtain ⟨m, hm, hne⟩ := exists_mode_ne_ecb hpos hle
    exact ends_of (checkInit_of_initialChain_error hkey hm (hiv ▸ initialChain_of_length_ne hne hv))

/-- Settles O23: whether the checks pass, and what session they then construct, the operands alone decide. -/
theorem initReplacesTheSessionOrKeepsIt : Obligations.InitReplacesTheSessionOrKeepsIt := by
  intro s s' mode key iv
  cases hcheck : checkInit mode key iv with
  | error e =>
    have hne : e ≠ .ok := by
      rintro rfl
      exact absurd (checkInit_error hcheck) (by decide)
    exact ⟨_, _, ⟨e, []⟩, exec_init_of_checkInit_error hcheck s, exec_init_of_checkInit_error hcheck s', rfl, rfl,
      fun hok => absurd hok hne, fun _ => ⟨rfl, rfl⟩⟩
  | ok p =>
    exact ⟨_, _, ⟨.ok, []⟩, exec_init_of_checkInit hcheck s, exec_init_of_checkInit hcheck s', rfl, rfl,
      fun _ => rfl, fun hne => absurd rfl hne⟩

/-- Settles O21: the checks of an ECB `INIT` do not read the IV. -/
theorem ecbInitIgnoresTheIv : Obligations.EcbInitIgnoresTheIv := by
  intro s key iv
  have hiv : checkInit 0 key iv = checkInit 0 key none := rfl
  refine ⟨?_, fun hkey => ?_⟩
  · change execInit 0 key iv s = execInit 0 key none s
    rw [execInit, execInit, hiv]
  · exact ⟨_, initConstructsTheSession s .ecb 0 key iv Block.zero hkey rfl (.inl ⟨rfl, rfl⟩), rfl, rfl⟩

theorem exec_release (s : State) : exec .release s =
    .next { s with session := Session.reset, responses := s.responses ++ [⟨.ok, []⟩] } := rfl

/-- Settles O24: `RELEASE` has no check. -/
theorem releaseClearsTheSession : Obligations.ReleaseClearsTheSession :=
  ⟨by decide, exec_release⟩

/-! ## Queries -/

section queries
variable {s : State} (out : Session → List Byte)

/-- R26: a query of a session returns what it reads. -/
theorem sessionQuery_of_configured (h : s.session.configured = true) :
    sessionQuery out s = .next { s with responses := s.responses ++ [⟨.ok, out s.session⟩] } := by
  rw [sessionQuery_eq, if_neg (by simp [h])]

/-- R196: without a session the query ends `NotInitialised`. -/
theorem sessionQuery_of_not_configured (h : s.session.configured = false) :
    sessionQuery out s = .next { s with responses := s.responses ++ [⟨.notInitialised, []⟩] } := by
  rw [sessionQuery_eq, if_pos h]

end queries

theorem exec_getBlockSize (s : State) : exec .getBlockSize s =
    .next { s with responses := s.responses ++ [⟨.ok, [0x10]⟩] } := rfl

/-- Settles O25: three of the queries are `sessionQuery`, each of its own register. -/
theorem queriesReturnTheirRegister : Obligations.QueriesReturnTheirRegister := by
  refine ⟨by decide, by decide, by decide, by decide, fun s => ⟨exec_getBlockSize s, fun hc => ⟨?_, ?_, ?_⟩,
    fun hc => ⟨?_, ?_, ?_⟩⟩⟩
  · exact (exec_getIv s).trans (sessionQuery_of_configured _ hc)
  · refine (exec_getKeySize s).trans ((sessionQuery_of_configured _ hc).trans ?_)
    rw [BitVec.ofNat_toNat]
  · refine (exec_getMode s).trans ((sessionQuery_of_configured _ hc).trans ?_)
    cases s.session.mode <;> rfl
  · exact (exec_getIv s).trans (sessionQuery_of_not_configured _ hc)
  · exact (exec_getKeySize s).trans (sessionQuery_of_not_configured _ hc)
  · exact (exec_getMode s).trans (sessionQuery_of_not_configured _ hc)

/-- Settles O26: the byte is `KLEN`, which the invariant bounds. -/
theorem keySizeIsLegal : Obligations.KeySizeIsLegal := by
  intro s hinv hc
  refine ⟨_, _, (exec_getKeySize s).trans (sessionQuery_of_configured _ hc), rfl, ?_⟩
  rcases hinv.session.keyLength hc with hk | hk | hk <;> simp [hk]

end Sys2Proof.Machine
end

section
/-! Errors and statuses (60_exceptions.md): which status each kind of command ends with, read off its one response, and
the statements. -/

namespace Sys2Proof.Machine

/-! ## A command that is not OK -/

/-- Settles O8: a command that decodes is executed, any other one is rejected. -/
theorem failedCommandsWriteNothing : Obligations.FailedCommandsWriteNothing := by
  intro s c rest hin
  cases hdec : decode c with
  | ok i =>
    obtain ⟨t, r, hexec, hanswer⟩ := exec_cases i { s with input := rest }
    exact ⟨t, r, (stepRunsTheDecodedCommand s c rest i hin hdec).trans hexec, hanswer⟩
  | error e => exact ⟨_, _, step_of_decode_error hin hdec, rfl, rfl, fun _ => ⟨rfl, rfl⟩⟩

/-! ## The statuses by command -/

section statuses
variable {s t : State} {r : Response}

/-- A command that responds once ends with the status of that response. -/
theorem status_of_respond {s' : State} {status : Status} {out : List Byte} (hkept : s'.responses = s.responses)
    (h : s'.respond status out = .next t) (hr : t.responses = s.responses ++ [r]) : r.status = status := by
  cases h
  obtain rfl : ⟨status, out⟩ = r := by simpa [hkept] using hr
  rfl

/-- R166, R167: a data command ends with the status of its checks. -/
theorem status_of_dataCommand {dir : Dir} {data : List Byte} (h : dataCommand dir data s = .next t)
    (hr : t.responses = s.responses ++ [r]) : r.status = dataStatus s.session data.length := by
  rcases dataCommand_cases dir data s with ⟨hok, heq⟩ | ⟨-, heq⟩
  · exact hok ▸ status_of_respond rfl (heq.symm.trans h) hr
  · exact status_of_respond rfl (heq.symm.trans h) hr

/-- R26, R196: a query of the session ends `NotInitialised` or `OK`. -/
theorem status_of_sessionQuery {out : Session → List Byte} (h : sessionQuery out s = .next t)
    (hr : t.responses = s.responses ++ [r]) : r.status ∈ [Status.ok, .notInitialised] := by
  unfold sessionQuery at h
  split at h
  · simp [status_of_respond rfl h hr]
  · simp [status_of_respond rfl h hr]

/-- R160, R161: an `INIT` ends `OK` or with the error of its checks. -/
theorem status_of_execInit {mode : BitVec 3} {key : List Byte} {iv : Option (List Byte)}
    (h : execInit mode key iv s = .next t) (hr : t.responses = s.responses ++ [r]) :
    r.status = .ok ∨ checkInit mode key iv = .error r.status := by
  unfold execInit at h
  split at h
  next e hcheck => exact .inr (status_of_respond rfl h hr ▸ hcheck)
  next => exact .inl (status_of_respond rfl h hr)

end statuses

/-- R166, R195: the statuses the checks of a data command can give. -/
theorem dataStatus_mem (r : Session) (n : Nat) :
    dataStatus r n ∈ [Status.ok, .notInitialised, .invalidInputLength, .partialBlockContinuation] := by
  unfold dataStatus
  split
  · decide
  · split <;> split <;> decide

/-- Settles O17: each command ends with the status of its own checks, or it has none. -/
theorem statusesByCommand : Obligations.StatusesByCommand := by
  intro i s t r h hr
  cases i with
  | init mode key iv =>
    rcases status_of_execInit h hr with hok | herror
    · simp [hok]
    · exact List.mem_cons_of_mem _ (checkInit_error herror)
  | encrypt data => exact status_of_dataCommand (dir := .enc) h hr ▸ dataStatus_mem _ _
  | decrypt data => exact status_of_dataCommand (dir := .dec) h hr ▸ dataStatus_mem _ _
  | getIv => exact status_of_sessionQuery ((exec_getIv s).symm.trans h) hr
  | getBlockSize => exact List.mem_singleton.mpr (status_of_respond rfl h hr)
  | getKeySize => exact status_of_sessionQuery ((exec_getKeySize s).symm.trans h) hr
  | getMode => exact status_of_sessionQuery ((exec_getMode s).symm.trans h) hr
  | release => exact List.mem_singleton.mpr (status_of_respond (s' := s.writeSession Session.reset) rfl h hr)

/-! ## Without a session -/

/-- Settles O38: the data commands and the session queries check for a session first. -/
theorem notInitialisedWithoutASession : Obligations.NotInitialisedWithoutASession := by
  intro s data hc i hi
  have hdata (dir : Dir) : exec (dir.instr data) s =
      .next { s with responses := s.responses ++ [⟨.notInitialised, []⟩] } :=
    exec_dirInstr_error (dataStatus_notInitialised hc _) (by decide)
  simp only [List.mem_cons, List.not_mem_nil, or_false] at hi
  rcases hi with rfl | rfl | rfl | rfl | rfl
  · exact hdata .enc
  · exact hdata .dec
  · exact (exec_getIv s).trans (sessionQuery_of_not_configured _ hc)
  · exact (exec_getKeySize s).trans (sessionQuery_of_not_configured _ hc)
  · exact (exec_getMode s).trans (sessionQuery_of_not_configured _ hc)

end Sys2Proof.Machine
end

section
/-! Reset (70_reset_and_hazards.md): the whole step of a reset and the reset values, and what a core without a session
answers. -/

namespace Sys2Proof.Machine

/-! ## The reset step -/

/-- Settles O11: of what a step can do, only the reset case takes a reset. -/
theorem resetIsAStepWithoutAResponse : Obligations.ResetIsAStepWithoutAResponse := by
  intro s rest hin
  rcases step_cases s with ⟨hnil, -⟩ | ⟨rest', hin', hs⟩ | ⟨_, _, _, hcmd, -⟩ | ⟨_, _, _, hcmd, -⟩
  · cases hin.symm.trans hnil
  · obtain rfl : rest = rest' := List.tail_eq_of_cons_eq (hin.symm.trans hin')
    exact hs
  · cases hin.symm.trans hcmd
  · cases hin.symm.trans hcmd

/-- R220, R24: every round-key word is zero after a reset. -/
theorem sessionReset_rk_getElem (i : Nat) (h : i < 60) : Session.reset.rk[i] = Word.zero :=
  Vector.getElem_replicate h

/-- Settles O10: a reset, `RELEASE` and the start state share one session, whose registers are read off. -/
theorem resetClearsEveryRegister : Obligations.ResetClearsEveryRegister := fun s rest hin =>
  ⟨_, _, resetIsAStepWithoutAResponse s rest hin, rfl, rfl, rfl, sessionReset_rk_getElem, rfl, rfl, exec_release s,
    rfl, rfl⟩

/-! ## What the host observes after a reset -/

/-- Settles O12: a session at its reset values is not configured, and `RELEASE` writes the same values again. -/
theorem responsesRightAfterReset : Obligations.ResponsesRightAfterReset := by
  intro s data hses
  have hc : s.session.configured = false := by rw [hses]; rfl
  refine ⟨exec_getBlockSize s, ?_, notInitialisedWithoutASession s data hc⟩
  rw [exec_release, ← hses]

end Sys2Proof.Machine
end
